-- ==== Sys2Proof/Word.lean ====
section
/-! DEFINITION. The machine word of the core and its byte and immediate widths (00_scope.md rule R11). -/

namespace Sys2Proof

/-- A 32-bit word: a register value, an address, or an extended immediate (R11). -/
abbrev Word := BitVec 32

/-- One byte of memory (R40). -/
abbrev Byte := BitVec 8

/-- A raw 16-bit immediate field (R61). -/
abbrev Imm16 := BitVec 16

/-- A raw 26-bit jump address field (R61). -/
abbrev Target26 := BitVec 26

/-- A general register's index, 0 to 31 (R21). -/
abbrev Reg := Fin 32

end Sys2Proof
end

