-- ==== Sys2Proof/Config.lean ====
section
/-! DEFINITION. The parameters that 00_scope.md section 3 fixes. The open parameters (MEM_SIZE,
memAdmit, INIT_MEM) are launch parameters and stand in State, so that every statement about all
states holds for all of their values. -/

namespace Sys2Proof.Config

/-- HALT_WORD, the halt sentinel (R103). -/
def haltWord : Word := 0xFEEDFEED

/-- LINK_OFFSET: jal links its own address plus this (R152, D16). -/
def linkOffset : Word := 4

/-- The register jal links into (R152). -/
def linkReg : Reg := 31

/-- EXIT_CLEAN (R164). -/
def exitClean : BitVec 8 := 0

/-- EXIT_ERROR (R164). -/
def exitError : BitVec 8 := 127

/-- The reset PC and entry point (R33, R182, D4). -/
def resetPc : Word := 0

/-- MEM_SIZE in `State.reset` only. The spec leaves MEM_SIZE open; 0x1000 is the value the
conventions of 95_test_vectors.md choose. DESIGN CHOICE, log entry 2. -/
def resetMemSize : Nat := 0x1000

end Sys2Proof.Config
end

