-- ==== Sys2Proof/Syntax.lean ====
section
/-! DEFINITION. The instruction set as syntax: one constructor per row of spec/opcode_table.json,
with exactly the operands the instruction's rule reads (30_encoding.md rules R64 to R66). -/

namespace Sys2Proof

/-- The 31 instructions of R64 and the halt sentinel of R103. Operands stand in the order of R65.
The fields an instruction ignores (R63) are no part of it. A shift count is a number; that it is at
most 31 is checked by `Instr.wf` (R120: a shift by 32 or more cannot be encoded). -/
inductive Instr where
  | sll (rd rt : Reg) (shamt : Nat)
  | srl (rd rt : Reg) (shamt : Nat)
  | jr (rs : Reg)
  | add (rd rs rt : Reg)
  | addu (rd rs rt : Reg)
  | sub (rd rs rt : Reg)
  | subu (rd rs rt : Reg)
  | and (rd rs rt : Reg)
  | or (rd rs rt : Reg)
  | nor (rd rs rt : Reg)
  | slt (rd rs rt : Reg)
  | sltu (rd rs rt : Reg)
  | beq (rs rt : Reg) (imm : Imm16)
  | bne (rs rt : Reg) (imm : Imm16)
  | blez (rs : Reg) (imm : Imm16)
  | bgtz (rs : Reg) (imm : Imm16)
  | addi (rt rs : Reg) (imm : Imm16)
  | addiu (rt rs : Reg) (imm : Imm16)
  | slti (rt rs : Reg) (imm : Imm16)
  | sltiu (rt rs : Reg) (imm : Imm16)
  | andi (rt rs : Reg) (imm : Imm16)
  | ori (rt rs : Reg) (imm : Imm16)
  | lui (rt : Reg) (imm : Imm16)
  | lw (rt rs : Reg) (imm : Imm16)
  | lbu (rt rs : Reg) (imm : Imm16)
  | lhu (rt rs : Reg) (imm : Imm16)
  | sb (rt rs : Reg) (imm : Imm16)
  | sh (rt rs : Reg) (imm : Imm16)
  | sw (rt rs : Reg) (imm : Imm16)
  | j (target : Target26)
  | jal (target : Target26)
  | halt
  deriving DecidableEq, Repr

/-- A control-transfer instruction (CTI), R14. -/
def Instr.isCti : Instr → Bool
  | .jr _ | .beq _ _ _ | .bne _ _ _ | .blez _ _ | .bgtz _ _ | .j _ | .jal _ => true
  | .sll _ _ _ | .srl _ _ _ | .add _ _ _ | .addu _ _ _ | .sub _ _ _ | .subu _ _ _ | .and _ _ _
  | .or _ _ _ | .nor _ _ _ | .slt _ _ _ | .sltu _ _ _ | .addi _ _ _ | .addiu _ _ _ | .slti _ _ _
  | .sltiu _ _ _ | .andi _ _ _ | .ori _ _ _ | .lui _ _ | .lw _ _ _ | .lbu _ _ _ | .lhu _ _ _
  | .sb _ _ _ | .sh _ _ _ | .sw _ _ _ | .halt => false

/-- The instructions that check signed overflow (R160). -/
def Instr.checksOverflow : Instr → Bool
  | .add _ _ _ | .sub _ _ _ | .addi _ _ _ => true
  | .sll _ _ _ | .srl _ _ _ | .jr _ | .addu _ _ _ | .subu _ _ _ | .and _ _ _ | .or _ _ _
  | .nor _ _ _ | .slt _ _ _ | .sltu _ _ _ | .beq _ _ _ | .bne _ _ _ | .blez _ _ | .bgtz _ _
  | .addiu _ _ _ | .slti _ _ _ | .sltiu _ _ _ | .andi _ _ _ | .ori _ _ _ | .lui _ _ | .lw _ _ _
  | .lbu _ _ _ | .lhu _ _ _ | .sb _ _ _ | .sh _ _ _ | .sw _ _ _ | .j _ | .jal _ | .halt => false

/-- The loads (R47). -/
def Instr.isLoad : Instr → Bool
  | .lw _ _ _ | .lbu _ _ _ | .lhu _ _ _ => true
  | .sll _ _ _ | .srl _ _ _ | .jr _ | .add _ _ _ | .addu _ _ _ | .sub _ _ _ | .subu _ _ _
  | .and _ _ _ | .or _ _ _ | .nor _ _ _ | .slt _ _ _ | .sltu _ _ _ | .beq _ _ _ | .bne _ _ _
  | .blez _ _ | .bgtz _ _ | .addi _ _ _ | .addiu _ _ _ | .slti _ _ _ | .sltiu _ _ _
  | .andi _ _ _ | .ori _ _ _ | .lui _ _ | .sb _ _ _ | .sh _ _ _ | .sw _ _ _ | .j _ | .jal _
  | .halt => false

/-- The stores (R47). -/
def Instr.isStore : Instr → Bool
  | .sb _ _ _ | .sh _ _ _ | .sw _ _ _ => true
  | .sll _ _ _ | .srl _ _ _ | .jr _ | .add _ _ _ | .addu _ _ _ | .sub _ _ _ | .subu _ _ _
  | .and _ _ _ | .or _ _ _ | .nor _ _ _ | .slt _ _ _ | .sltu _ _ _ | .beq _ _ _ | .bne _ _ _
  | .blez _ _ | .bgtz _ _ | .addi _ _ _ | .addiu _ _ _ | .slti _ _ _ | .sltiu _ _ _
  | .andi _ _ _ | .ori _ _ _ | .lui _ _ | .lw _ _ _ | .lbu _ _ _ | .lhu _ _ _ | .j _ | .jal _
  | .halt => false

/-- The registers an instruction reads: the "reads" column of R32. -/
def Instr.reads : Instr → List Reg
  | .sll _ rt _ | .srl _ rt _ => [rt]
  | .jr rs | .blez rs _ | .bgtz rs _ => [rs]
  | .add _ rs rt | .addu _ rs rt | .sub _ rs rt | .subu _ rs rt | .and _ rs rt | .or _ rs rt
  | .nor _ rs rt | .slt _ rs rt | .sltu _ rs rt => [rs, rt]
  | .beq rs rt _ | .bne rs rt _ => [rs, rt]
  | .addi _ rs _ | .addiu _ rs _ | .slti _ rs _ | .sltiu _ rs _ | .andi _ rs _ | .ori _ rs _ => [rs]
  | .lw _ rs _ | .lbu _ rs _ | .lhu _ rs _ => [rs]
  | .sb rt rs _ | .sh rt rs _ | .sw rt rs _ => [rs, rt]
  | .lui _ _ | .j _ | .jal _ | .halt => []

/-- The registers an instruction may write: the "writes" column of R32. -/
def Instr.writes : Instr → List Reg
  | .sll rd _ _ | .srl rd _ _ | .add rd _ _ | .addu rd _ _ | .sub rd _ _ | .subu rd _ _
  | .and rd _ _ | .or rd _ _ | .nor rd _ _ | .slt rd _ _ | .sltu rd _ _ => [rd]
  | .addi rt _ _ | .addiu rt _ _ | .slti rt _ _ | .sltiu rt _ _ | .andi rt _ _ | .ori rt _ _
  | .lui rt _ | .lw rt _ _ | .lbu rt _ _ | .lhu rt _ _ => [rt]
  | .jal _ => [31]
  | .jr _ | .beq _ _ _ | .bne _ _ _ | .blez _ _ | .bgtz _ _ | .sb _ _ _ | .sh _ _ _ | .sw _ _ _
  | .j _ | .halt => []

/-! ### Pseudo-instructions (R71) -/

/-- `nop`, the word 0x00000000 (R68, R71). -/
def Instr.nop : Instr := .sll 0 0 0

/-- The pair `lui rt, hi16` and `ori rt, rt, lo16` that loads a 32-bit constant (R71). -/
def Instr.loadConst (rt : Reg) (v : Word) : List Instr :=
  [.lui rt (v.extractLsb' 16 16), .ori rt rt (v.extractLsb' 0 16)]

end Sys2Proof
end

