-- ==== Sys2Proof/WellFormed.lean ====
section
/-! DEFINITION. What makes an instruction, a jump operand and a program text well formed: the shift
count of R120 and R66, the jump operand of R70 and the placement rule of R184. -/

namespace Sys2Proof

/-- A well-formed instruction: a shift count is 0 to 31 (R66, R120). Every other operand is in range
by its type. -/
def Instr.wf : Instr → Bool
  | .sll _ _ shamt | .srl _ _ shamt => decide (shamt < 32)
  | .jr _ | .add _ _ _ | .addu _ _ _ | .sub _ _ _ | .subu _ _ _ | .and _ _ _ | .or _ _ _
  | .nor _ _ _ | .slt _ _ _ | .sltu _ _ _ | .beq _ _ _ | .bne _ _ _ | .blez _ _ | .bgtz _ _
  | .addi _ _ _ | .addiu _ _ _ | .slti _ _ _ | .sltiu _ _ _ | .andi _ _ _ | .ori _ _ _ | .lui _ _
  | .lw _ _ _ | .lbu _ _ _ | .lhu _ _ _ | .sb _ _ _ | .sh _ _ _ | .sw _ _ _ | .j _ | .jal _
  | .halt => true

/-- The byte operand `addr` of `j addr` or `jal addr` can be encoded at `pcInc`: it is a multiple of
4 in the 256 MiB region of `pcInc` (R70). -/
def jumpOperandOk (pcInc addr : Word) : Bool :=
  addr.extractLsb' 0 2 == 0#2 && addr.extractLsb' 28 4 == pcInc.extractLsb' 28 4

/-- The placement rule software must keep: no CTI stands in the delay slot of a CTI (R184). -/
def placementOk : List Instr → Bool
  | [] => true
  | [_] => true
  | i :: k :: rest => !(i.isCti && k.isCti) && placementOk (k :: rest)

end Sys2Proof
end

