-- ==== Sys2Proof/Decode.lean ====
section
/-! DEFINITION. Field extraction (R6, R61), the total decoder (R65, with the sentinel of R103 in
front), the encoder (R61, R62, R64), and the opcode table of spec/opcode_table.json as data.
The bit positions and the numbers are those of R61 and R64, which the spec marks as general
knowledge (G1, G2): log entry 9. -/

namespace Sys2Proof

/-! ### Fields (R61) -/

/-- `op`, w[31:26]. -/
def opField (w : Word) : BitVec 6 := w.extractLsb' 26 6
/-- `funct`, w[5:0]. -/
def functField (w : Word) : BitVec 6 := w.extractLsb' 0 6
/-- `shamt`, w[10:6], as a count. -/
def shamtField (w : Word) : Nat := (w.extractLsb' 6 5).toNat
/-- `imm`, w[15:0]. -/
def immField (w : Word) : Imm16 := w.extractLsb' 0 16
/-- `target`, w[25:0]. -/
def targetField (w : Word) : Target26 := w.extractLsb' 0 26

/-- A 5-bit register field as a register index (R61: registers are indexed 0 to 31). -/
def regOfBits (b : BitVec 5) : Reg := ⟨b.toNat, b.isLt⟩

/-- `rs`, w[25:21]. -/
def rsField (w : Word) : Reg := regOfBits (w.extractLsb' 21 5)
/-- `rt`, w[20:16]. -/
def rtField (w : Word) : Reg := regOfBits (w.extractLsb' 16 5)
/-- `rd`, w[15:11]. -/
def rdField (w : Word) : Reg := regOfBits (w.extractLsb' 11 5)

/-! ### The decoder -/

/-- Why bytes are no instruction. -/
inductive Reject where
  /-- `ILLEGAL(w)` because `op` is no primary opcode of R64 (R67, first case). -/
  | illegalOpcode (w : Word)
  /-- `ILLEGAL(w)` because `op` is 0 and `funct` is no function code of R64 (R67, second case). -/
  | illegalFunct (w : Word)
  /-- Fewer than the four bytes of an instruction word (R60). -/
  | truncated
  deriving DecidableEq, Repr

/-- R65's inner dispatch, by function code, for `op` = 0. -/
def decodeRType (w : Word) : Except Reject Instr :=
  match functField w with
  | 0x00#6 => .ok (.sll (rdField w) (rtField w) (shamtField w))
  | 0x02#6 => .ok (.srl (rdField w) (rtField w) (shamtField w))
  | 0x08#6 => .ok (.jr (rsField w))
  | 0x20#6 => .ok (.add (rdField w) (rsField w) (rtField w))
  | 0x21#6 => .ok (.addu (rdField w) (rsField w) (rtField w))
  | 0x22#6 => .ok (.sub (rdField w) (rsField w) (rtField w))
  | 0x23#6 => .ok (.subu (rdField w) (rsField w) (rtField w))
  | 0x24#6 => .ok (.and (rdField w) (rsField w) (rtField w))
  | 0x25#6 => .ok (.or (rdField w) (rsField w) (rtField w))
  | 0x27#6 => .ok (.nor (rdField w) (rsField w) (rtField w))
  | 0x2A#6 => .ok (.slt (rdField w) (rsField w) (rtField w))
  | 0x2B#6 => .ok (.sltu (rdField w) (rsField w) (rtField w))
  | _ => .error (.illegalFunct w)

/-- R65's outer dispatch, by primary opcode. -/
def decodeOp (w : Word) : Except Reject Instr :=
  match opField w with
  | 0x00#6 => decodeRType w
  | 0x02#6 => .ok (.j (targetField w))
  | 0x03#6 => .ok (.jal (targetField w))
  | 0x04#6 => .ok (.beq (rsField w) (rtField w) (immField w))
  | 0x05#6 => .ok (.bne (rsField w) (rtField w) (immField w))
  | 0x06#6 => .ok (.blez (rsField w) (immField w))
  | 0x07#6 => .ok (.bgtz (rsField w) (immField w))
  | 0x08#6 => .ok (.addi (rtField w) (rsField w) (immField w))
  | 0x09#6 => .ok (.addiu (rtField w) (rsField w) (immField w))
  | 0x0A#6 => .ok (.slti (rtField w) (rsField w) (immField w))
  | 0x0B#6 => .ok (.sltiu (rtField w) (rsField w) (immField w))
  | 0x0C#6 => .ok (.andi (rtField w) (rsField w) (immField w))
  | 0x0D#6 => .ok (.ori (rtField w) (rsField w) (immField w))
  | 0x0F#6 => .ok (.lui (rtField w) (immField w))
  | 0x23#6 => .ok (.lw (rtField w) (rsField w) (immField w))
  | 0x24#6 => .ok (.lbu (rtField w) (rsField w) (immField w))
  | 0x25#6 => .ok (.lhu (rtField w) (rsField w) (immField w))
  | 0x28#6 => .ok (.sb (rtField w) (rsField w) (immField w))
  | 0x29#6 => .ok (.sh (rtField w) (rsField w) (immField w))
  | 0x2B#6 => .ok (.sw (rtField w) (rsField w) (immField w))
  | _ => .error (.illegalOpcode w)

/-- The decoder, total on all 2^32 words. The halt sentinel is recognised first (R69, R103) and is
the instruction `halt` here, so that R100's phases 3 and 4 are one function. DEDUCED, log entry 11. -/
def decode (w : Word) : Except Reject Instr :=
  if w = Config.haltWord then .ok .halt else decodeOp w

/-- The word that four bytes hold, most significant first (R41). -/
def wordOfBytes (b0 b1 b2 b3 : Byte) : Word := b0 ++ b1 ++ b2 ++ b3

/-- The four bytes of a word, most significant first (R41). -/
def bytesOfWord (w : Word) : List Byte :=
  [w.extractLsb' 24 8, w.extractLsb' 16 8, w.extractLsb' 8 8, w.extractLsb' 0 8]

/-- The instruction at the front of a byte string and what follows it. -/
def decodeBytes : List Byte → Except Reject (Instr × List Byte)
  | b0 :: b1 :: b2 :: b3 :: rest =>
    match decode (wordOfBytes b0 b1 b2 b3) with
    | .ok i => .ok (i, rest)
    | .error r => .error r
  | [] | [_] | [_, _] | [_, _, _] => .error .truncated

/-- The instruction the decoder reads from a row's bits, numbered as spec/opcode_table.json numbers
them: a row is one 32-bit word, stored most significant byte first (R41, R60). -/
def decodeTableWord (nbits w : Nat) : Option Instr :=
  match decodeBytes (bytesOfWord (BitVec.ofNat 32 (w % 2 ^ nbits))) with
  | .ok (i, _) => some i
  | .error _ => none

/-! ### The encoder (R61, R62, R64) -/

/-- A register index as a 5-bit field. -/
def regBits (r : Reg) : BitVec 5 := BitVec.ofNat 5 r.val

/-- The R-type format of R62, op = 0. -/
def wordR (rs rt rd : Reg) (shamt : BitVec 5) (funct : BitVec 6) : Word :=
  0#6 ++ regBits rs ++ regBits rt ++ regBits rd ++ shamt ++ funct

/-- The I-type format of R62. -/
def wordI (op : BitVec 6) (rs rt : Reg) (imm : Imm16) : Word :=
  op ++ regBits rs ++ regBits rt ++ imm

/-- The J-type format of R62. -/
def wordJ (op : BitVec 6) (target : Target26) : Word := op ++ target

/-- The word of a well-formed instruction. A field the instruction ignores (R63) is encoded as 0.
DESIGN CHOICE, log entry 10. -/
def encode : Instr → Word
  | .sll rd rt shamt => wordR 0 rt rd (BitVec.ofNat 5 shamt) 0x00#6
  | .srl rd rt shamt => wordR 0 rt rd (BitVec.ofNat 5 shamt) 0x02#6
  | .jr rs => wordR rs 0 0 0 0x08#6
  | .add rd rs rt => wordR rs rt rd 0 0x20#6
  | .addu rd rs rt => wordR rs rt rd 0 0x21#6
  | .sub rd rs rt => wordR rs rt rd 0 0x22#6
  | .subu rd rs rt => wordR rs rt rd 0 0x23#6
  | .and rd rs rt => wordR rs rt rd 0 0x24#6
  | .or rd rs rt => wordR rs rt rd 0 0x25#6
  | .nor rd rs rt => wordR rs rt rd 0 0x27#6
  | .slt rd rs rt => wordR rs rt rd 0 0x2A#6
  | .sltu rd rs rt => wordR rs rt rd 0 0x2B#6
  | .beq rs rt imm => wordI 0x04#6 rs rt imm
  | .bne rs rt imm => wordI 0x05#6 rs rt imm
  | .blez rs imm => wordI 0x06#6 rs 0 imm
  | .bgtz rs imm => wordI 0x07#6 rs 0 imm
  | .addi rt rs imm => wordI 0x08#6 rs rt imm
  | .addiu rt rs imm => wordI 0x09#6 rs rt imm
  | .slti rt rs imm => wordI 0x0A#6 rs rt imm
  | .sltiu rt rs imm => wordI 0x0B#6 rs rt imm
  | .andi rt rs imm => wordI 0x0C#6 rs rt imm
  | .ori rt rs imm => wordI 0x0D#6 rs rt imm
  | .lui rt imm => wordI 0x0F#6 0 rt imm
  | .lw rt rs imm => wordI 0x23#6 rs rt imm
  | .lbu rt rs imm => wordI 0x24#6 rs rt imm
  | .lhu rt rs imm => wordI 0x25#6 rs rt imm
  | .sb rt rs imm => wordI 0x28#6 rs rt imm
  | .sh rt rs imm => wordI 0x29#6 rs rt imm
  | .sw rt rs imm => wordI 0x2B#6 rs rt imm
  | .j target => wordJ 0x02#6 target
  | .jal target => wordJ 0x03#6 target
  | .halt => Config.haltWord

/-! ### The opcode table as data -/

/-- One row of spec/opcode_table.json. `used` is the mask of every bit that selects the instruction
or that its rule reads: the row's "mask" and the fields of its "used" entry. -/
structure Row where
  pattern : Word
  mask : Word
  used : Word
  deriving DecidableEq, Repr

/-- The row of a function code, with its used bits. -/
def rowR (funct : BitVec 6) (used : Word) : Row :=
  { pattern := funct.setWidth 32, mask := 0xFC00003F, used := used }

/-- The row of a primary opcode, with its used bits. -/
def rowOp (op : BitVec 6) (used : Word) : Row :=
  { pattern := op.setWidth 32 <<< 26, mask := 0xFC000000, used := used }

/-- The row of spec/opcode_table.json that an instruction belongs to. -/
def Instr.row : Instr → Row
  | .sll _ _ _ => rowR 0x00#6 0xFC1FFFFF
  | .srl _ _ _ => rowR 0x02#6 0xFC1FFFFF
  | .jr _ => rowR 0x08#6 0xFFE0003F
  | .add _ _ _ => rowR 0x20#6 0xFFFFF83F
  | .addu _ _ _ => rowR 0x21#6 0xFFFFF83F
  | .sub _ _ _ => rowR 0x22#6 0xFFFFF83F
  | .subu _ _ _ => rowR 0x23#6 0xFFFFF83F
  | .and _ _ _ => rowR 0x24#6 0xFFFFF83F
  | .or _ _ _ => rowR 0x25#6 0xFFFFF83F
  | .nor _ _ _ => rowR 0x27#6 0xFFFFF83F
  | .slt _ _ _ => rowR 0x2A#6 0xFFFFF83F
  | .sltu _ _ _ => rowR 0x2B#6 0xFFFFF83F
  | .beq _ _ _ => rowOp 0x04#6 0xFFFFFFFF
  | .bne _ _ _ => rowOp 0x05#6 0xFFFFFFFF
  | .blez _ _ => rowOp 0x06#6 0xFFE0FFFF
  | .bgtz _ _ => rowOp 0x07#6 0xFFE0FFFF
  | .addi _ _ _ => rowOp 0x08#6 0xFFFFFFFF
  | .addiu _ _ _ => rowOp 0x09#6 0xFFFFFFFF
  | .slti _ _ _ => rowOp 0x0A#6 0xFFFFFFFF
  | .sltiu _ _ _ => rowOp 0x0B#6 0xFFFFFFFF
  | .andi _ _ _ => rowOp 0x0C#6 0xFFFFFFFF
  | .ori _ _ _ => rowOp 0x0D#6 0xFFFFFFFF
  | .lui _ _ => rowOp 0x0F#6 0xFC1FFFFF
  | .lw _ _ _ => rowOp 0x23#6 0xFFFFFFFF
  | .lbu _ _ _ => rowOp 0x24#6 0xFFFFFFFF
  | .lhu _ _ _ => rowOp 0x25#6 0xFFFFFFFF
  | .sb _ _ _ => rowOp 0x28#6 0xFFFFFFFF
  | .sh _ _ _ => rowOp 0x29#6 0xFFFFFFFF
  | .sw _ _ _ => rowOp 0x2B#6 0xFFFFFFFF
  | .j _ => rowOp 0x02#6 0xFFFFFFFF
  | .jal _ => rowOp 0x03#6 0xFFFFFFFF
  | .halt => { pattern := Config.haltWord, mask := 0xFFFFFFFF, used := 0xFFFFFFFF }

/-- The 12 function-code rows of spec/opcode_table.json. -/
def rTypeRows : List Row :=
  [Instr.row (.sll 0 0 0), Instr.row (.srl 0 0 0), Instr.row (.jr 0), Instr.row (.add 0 0 0),
    Instr.row (.addu 0 0 0), Instr.row (.sub 0 0 0), Instr.row (.subu 0 0 0),
    Instr.row (.and 0 0 0), Instr.row (.or 0 0 0), Instr.row (.nor 0 0 0), Instr.row (.slt 0 0 0),
    Instr.row (.sltu 0 0 0)]

/-- The 19 primary-opcode rows of spec/opcode_table.json. -/
def opRows : List Row :=
  [Instr.row (.beq 0 0 0), Instr.row (.bne 0 0 0), Instr.row (.blez 0 0), Instr.row (.bgtz 0 0),
    Instr.row (.addi 0 0 0), Instr.row (.addiu 0 0 0), Instr.row (.slti 0 0 0),
    Instr.row (.sltiu 0 0 0), Instr.row (.andi 0 0 0), Instr.row (.ori 0 0 0),
    Instr.row (.lui 0 0)] ++
  [Instr.row (.lw 0 0 0), Instr.row (.lbu 0 0 0), Instr.row (.lhu 0 0 0), Instr.row (.sb 0 0 0),
    Instr.row (.sh 0 0 0), Instr.row (.sw 0 0 0), Instr.row (.j 0), Instr.row (.jal 0)]

/-- The 31 instruction rows; the sentinel's row takes priority over all of them (R69). -/
def opcodeTable : List Row := rTypeRows ++ opRows

/-- A word matches a row. -/
def Row.hit (r : Row) (w : Word) : Bool := w &&& r.mask == r.pattern

end Sys2Proof
end

