-- ==== Sys2Proof/Machine/Flags.lean ====
section
/-! DEFINITION. The Arithmetic Overflow Checker (R10). The core stores no flag (R28): these booleans
are consumed inside the instruction that computes them. -/

namespace Sys2Proof.Machine

/-- `ovf_add(a, b, r)`: the operands have the same sign and the result's differs (R10). -/
def ovfAdd (a b r : Word) : Bool := a.msb == b.msb && r.msb != a.msb

/-- `ovf_sub(a, b, r)`: the operands' signs differ and the result's differs from the first (R10,
D13). -/
def ovfSub (a b r : Word) : Bool := a.msb != b.msb && r.msb != a.msb

end Sys2Proof.Machine
end

