-- ==== Sys2Proof/Machine/Operands.lean ====
section
/-! DEFINITION. The Value Extension Unit and every operand form of 30_encoding.md rule R66, as
functions of words (00_scope.md rules R7 to R9). -/

namespace Sys2Proof.Machine

/-- `sext_32` of a 16-bit value (R7). -/
def sext32 (v : Imm16) : Word := v.signExtend 32

/-- `zext_32` of an 8-bit or 16-bit value (R8). -/
def zext32 {n : Nat} (v : BitVec n) : Word := v.setWidth 32

/-- `bdisp`, the branch displacement (R9). -/
def bdisp (v : Imm16) : Word := sext32 v <<< 2

/-- lui's value, `imm ++ 0x0000` (R66, R129). -/
def upperImm (imm : Imm16) : Word := imm ++ 0x0000#16

/-- The effective address of a load or store (R66, R130). -/
def effAddr (base : Word) (imm : Imm16) : Word := base + sext32 imm

/-- A branch's target (R66, R144). -/
def branchTarget (pcInc : Word) (imm : Imm16) : Word := pcInc + bdisp imm

/-- A jump's target, `(pc_inc & 0xF0000000) | (target << 2)` (R66, R151, D15). -/
def jumpTarget (pcInc : Word) (target : Target26) : Word :=
  (pcInc &&& 0xF0000000) ||| (target.setWidth 32 <<< 2)

/-- jal's link value: the address of the jal plus LINK_OFFSET, which is `pc_inc` (R152, D16). -/
def linkValue (pcInc : Word) : Word := (pcInc - 4) + Config.linkOffset

/-- 1 for true and 0 for false: the result of a set-on-less-than (R118). -/
def boolWord (b : Bool) : Word := if b then 1 else 0

/-- `<s`, less-than on the signed readings (R11). -/
def ltSigned (a b : Word) : Bool := decide (a.toInt < b.toInt)

/-- `<u`, less-than on the unsigned readings (R11). -/
def ltUnsigned (a b : Word) : Bool := decide (a.toNat < b.toNat)

end Sys2Proof.Machine
end

