-- ==== Sys2Proof/Machine/State.lean ====
section
/-! DEFINITION. The state of the machine as plain data (10_state.md), the reasons a step can stop,
and the state right after reset (R33, R180). -/

namespace Sys2Proof.Machine

/-- The termination state (R26). -/
inductive Term where
  | running
  | haltedClean
  | haltedError
  deriving DecidableEq, Repr

/-- The error cause (R27). -/
inductive Cause where
  | none
  | illegalInstruction
  | arithmeticOverflow
  | memoryAccessFault
  deriving DecidableEq, Repr

/-- The width of a memory access: 1, 2 or 4 bytes (R47). -/
inductive Width where
  | byte
  | half
  | word
  deriving DecidableEq, Repr

/-- A diagnostic event: a cause and the information R160 says it carries. Its text is unspecified
and is not modelled (R167). -/
inductive Diag where
  /-- The instruction word. -/
  | illegalInstruction (w : Word)
  /-- The two operands. -/
  | arithmeticOverflow (a b : Word)
  /-- The address and the width. -/
  | memoryAccessFault (addr : Word) (width : Width)
  deriving DecidableEq, Repr

/-- The memory's admission contract, the launch parameters memAdmit and MEM_SIZE (R5, R44, D8), as
plain data. `sized n` is the default R44 fixes, with MEM_SIZE = n. `listed l` is any other contract:
exactly the accesses in `l` are admitted, and every predicate on addresses and widths is one such
list, because both are finite. DEDUCED, log entry 3. -/
inductive Admission where
  | sized (memSize : Nat)
  | listed (admitted : List (Word × Width))
  deriving DecidableEq, Repr

/-- Memory contents: (address, byte) pairs in the canonical form of `Memory.wf` (Machine/Ops.lean).
An address that is not listed reads as `Memory.unlisted`. -/
abbrev Memory := List Host.Cell

/-- Everything the spec gives the machine: the record of R20 and the memory of R40. The last two
fields are the model's own: the output events of R167 and the launch parameters of R5. -/
structure State where
  /-- x[0..31]; x[0] is a real cell (R21, R22). -/
  regs : Vector Word 32
  /-- The program counter; during execution, `pc_inc` (R25). -/
  pc : Word
  /-- pend_valid (R24). -/
  pendValid : Bool
  /-- pend_target (R24). -/
  pendTarget : Word
  /-- The termination state (R26). -/
  term : Term
  /-- The error cause (R27). -/
  cause : Cause
  /-- The memory (R40). -/
  mem : Memory
  /-- The diagnostic events emitted so far, oldest first (R165, R167). -/
  diags : List Diag
  /-- The memory's contract, fixed at launch (R5, R44). -/
  admission : Admission
  deriving DecidableEq, Repr

/-- Why a step stops with a fault. -/
inductive Fault where
  /-- Raised by `cycle` when `term` is not Running: R26 defines no step there. Safe: the run has
  ended and no hardware step exists. DEDUCED, log entry 5. -/
  | runEnded
  deriving DecidableEq, Repr

/-- Why a step is refused. -/
inductive Refusal where
  /-- Raised by an arm of `exec` whose instruction has no meaning yet. Safe: nothing is proved of
  it. No arm is left in that form. -/
  | notModelled (mnemonic : String)
  /-- Raised by `cycle` on a fetch from a PC that is not a multiple of 4 (R101, R172, D10). Safe:
  the spec itself refuses. -/
  | misalignedFetch
  /-- Raised by the CTIs when a redirect is already pending (R143, R172, D11). Safe: the spec itself
  refuses. -/
  | ctiInDelaySlot
  deriving DecidableEq, Repr

/-- The outcome of an instruction or of a step. -/
abbrev Result := Host.Outcome State Fault Refusal

/-- The state after reset (R33, R180): registers 0, pc 0, Idle, Running, cause None. pend_target is
unspecified there; 0 is a DESIGN CHOICE (log entry 4). Memory lists nothing (log entry 1) and has
the default admission with the MEM_SIZE of `Config.resetMemSize` (log entry 2); for a launch with
other parameters see `State.launch` (Machine/Launch.lean). -/
def State.reset : State where
  regs := Vector.replicate 32 0
  pc := Config.resetPc
  pendValid := false
  pendTarget := 0
  term := .running
  cause := .none
  mem := []
  diags := []
  admission := .sized Config.resetMemSize

end Sys2Proof.Machine
end

