-- ==== Sys2Proof/Machine/Ops.lean ====
section
/-! DEFINITION. The shared operations: memory (20_memory.md), registers (10_state.md), taking an
exception (60_exceptions.md rule R165), the halt, and the sequencer (44_control.md). The core has no
return from an exception (R170), so none stands here. -/

namespace Sys2Proof.Machine

/-! ### Memory contents -/

/-- What an address that is not listed reads as. The spec leaves INIT_MEM open; every INIT_MEM is
some canonical list, so this byte only matters for a state whose list is silent, such as
`State.reset`. DESIGN CHOICE, log entry 1. -/
def Memory.unlisted : Byte := 0x00

/-- The byte at an address. -/
def Memory.byteAt : Memory → Nat → Byte
  | [], _ => Memory.unlisted
  | (k, b) :: rest, a => if k = a then b else Memory.byteAt rest a

/-- The memory with one byte changed, kept in canonical form: sorted, and without an entry that
equals what an unlisted address reads as. -/
def Memory.setByte : Memory → Nat → Byte → Memory
  | [], a, b => if b = Memory.unlisted then [] else [(a, b)]
  | (k, c) :: rest, a, b =>
    if a < k then
      if b = Memory.unlisted then (k, c) :: rest else (a, b) :: (k, c) :: rest
    else if a = k then
      if b = Memory.unlisted then rest else (a, b) :: rest
    else (k, c) :: Memory.setByte rest a b

/-- Every entry lies at or above `lo`, inside the 2^32 addresses (R40), in strictly rising order,
and differs from what an unlisted address reads as. -/
def Memory.wfFrom : Nat → Memory → Bool
  | _, [] => true
  | lo, (k, b) :: rest =>
    decide (lo ≤ k) && decide (k < 2 ^ 32) && b != Memory.unlisted && Memory.wfFrom (k + 1) rest

/-- The canonical form of a memory: equal contents are equal lists. -/
def Memory.wf (m : Memory) : Bool := Memory.wfFrom 0 m

/-- The big-endian read of R42, zero-extended to 32 bits; addresses are mod 2^32. -/
def Memory.read (m : Memory) (a : Word) : Width → Word
  | .byte => zext32 (m.byteAt a.toNat)
  | .half => zext32 (m.byteAt a.toNat ++ m.byteAt (a + 1).toNat)
  | .word => m.byteAt a.toNat ++ m.byteAt (a + 1).toNat ++ m.byteAt (a + 2).toNat
      ++ m.byteAt (a + 3).toNat

/-- The big-endian write of R43: the low bytes of `v`; addresses are mod 2^32. -/
def Memory.write (m : Memory) (a : Word) (w : Width) (v : Word) : Memory :=
  match w with
  | .byte => m.setByte a.toNat (v.extractLsb' 0 8)
  | .half => (m.setByte a.toNat (v.extractLsb' 8 8)).setByte (a + 1).toNat (v.extractLsb' 0 8)
  | .word =>
    (((m.setByte a.toNat (v.extractLsb' 24 8)).setByte (a + 1).toNat (v.extractLsb' 16 8)).setByte
      (a + 2).toNat (v.extractLsb' 8 8)).setByte (a + 3).toNat (v.extractLsb' 0 8)

/-- The memory with a program image loaded byte for byte from address `at0` on (R181). -/
def Memory.load : Memory → Nat → List Byte → Memory
  | m, _, [] => m
  | m, at0, b :: rest => Memory.load (m.setByte at0 b) (at0 + 1) rest

/-! ### The memory port (R109) -/

/-- The number of bytes of an access (R47). -/
def Width.bytes : Width → Nat
  | .byte => 1
  | .half => 2
  | .word => 4

/-- `memAdmit` (R44). -/
def Admission.admits (c : Admission) (a : Word) (w : Width) : Bool :=
  match c with
  | .sized memSize => decide (a.toNat % w.bytes = 0) && decide (a.toNat + w.bytes ≤ memSize)
  | .listed l => l.contains (a, w)

/-- The byte the machine's memory holds at an address. -/
def State.byteAt (s : State) (a : Word) : Byte := s.mem.byteAt a.toNat

/-- `MemRead` (R42): none where the access is not admitted. -/
def memRead (s : State) (a : Word) (w : Width) : Option Word :=
  if s.admission.admits a w then some (s.mem.read a w) else none

/-- `MemWrite` (R43): none where the access is not admitted, and then no byte is written (D12). -/
def memWrite (s : State) (a : Word) (w : Width) (v : Word) : Option State :=
  if s.admission.admits a w then some { s with mem := s.mem.write a w v } else none

/-! ### Registers -/

/-- `x[r]`: the cell as it stands (R12, R21). -/
def State.reg (s : State) (r : Reg) : Word := s.regs[r]

/-- `x[r] <- v`, for x[0] like any other (R12, R22). -/
def State.setReg (s : State) (r : Reg) (v : Word) : State := { s with regs := s.regs.set r v }

/-- Phase 2 of a step: `pc <- pc + 4`, then `x[0] <- 0` (R102). -/
def advance (s : State) : State := { s.setReg 0 0 with pc := s.pc + 4 }

/-! ### Exceptions and the halt -/

/-- The cause a diagnostic event belongs to (R160). -/
def Diag.cause : Diag → Cause
  | .illegalInstruction _ => .illegalInstruction
  | .arithmeticOverflow _ _ => .arithmeticOverflow
  | .memoryAccessFault _ _ => .memoryAccessFault

/-- `raise C(info)` (R165): emit the diagnostic event, `term <- HaltedError`, `cause <- C`. Nothing
is saved, no vector is taken, and every effect already performed stands. -/
def raise (d : Diag) (s : State) : State :=
  { s with diags := s.diags ++ [d], term := .haltedError, cause := d.cause }

/-- The clean halt: `term <- HaltedClean` and nothing else (R103). -/
def haltClean (s : State) : State := { s with term := .haltedClean }

/-! ### The sequencer (R140 to R143) -/

/-- The second half of R142: a request `some t` becomes DelayPending(t). Only a CTI makes a request,
and never with a redirect pending (R143), so it is recorded where the CTI executes. DEDUCED, log
entry 7. -/
def request (req : Option Word) (s : State) : State :=
  match req with
  | none => s
  | some t => { s with pendValid := true, pendTarget := t }

/-- The first half of R142, phase 7 of a step: after a delay slot the pending target becomes the PC
and the sequencer is Idle. It does not run when the step ended by a raise or by the sentinel (R100,
R103, R142). -/
def sequence (slot : Bool) (s : State) : State :=
  match slot, s.term with
  | true, .running => { s with pc := s.pendTarget, pendValid := false }
  | true, .haltedClean | true, .haltedError | false, _ => s

/-! ### Shapes of instructions -/

/-- A register write that then raises ArithmeticOverflow if the check fires: the destination is
written first (R111, R113, R123, R162). -/
def writeChecked (rd : Reg) (r : Word) (ovf : Bool) (a b : Word) (s : State) : Result :=
  let t := s.setReg rd r
  .next (if ovf then raise (.arithmeticOverflow a b) t else t)

/-- A load: x[rt] is written only when the read is admitted (R130). -/
def load (w : Width) (rt : Reg) (ea : Word) (s : State) : Result :=
  match memRead s ea w with
  | some v => .next (s.setReg rt v)
  | none => .next (raise (.memoryAccessFault ea w) s)

/-- A store: memory is written only when the write is admitted (R130). -/
def store (w : Width) (v : Word) (ea : Word) (s : State) : Result :=
  match memWrite s ea w v with
  | some t => .next t
  | none => .next (raise (.memoryAccessFault ea w) s)

/-- A CTI that makes the request `req` and leaves the state `s`: refused, before it has any effect,
when a redirect is pending, whether or not a branch would be taken (R143). -/
def controlTransfer (req : Option Word) (s : State) : Result :=
  if s.pendValid then .refused .ctiInDelaySlot else .next (request req s)

/-- A branch: a request for its target if taken, and none if not (R141, R144). -/
def branchIf (taken : Bool) (imm : Imm16) (s : State) : Result :=
  controlTransfer (if taken then some (branchTarget s.pc imm) else none) s

end Sys2Proof.Machine
end

