-- ==== Sys2Proof/Machine/Cycle.lean ====
section
/-! DEFINITION. One step of the core (40_cycle.md rules R100 to R106), written over the dispatcher
as an argument so that Machine/Step.lean only supplies `exec`. -/

namespace Sys2Proof.Machine

/-- What phase 1 of a step finds (R101). -/
inductive Fetched where
  | misaligned
  | notAdmitted
  | word (w : Word)
  deriving DecidableEq, Repr

/-- Phase 1: the word at `pc`, read as 4 big-endian bytes through the port (R101). -/
def fetch (s : State) : Fetched :=
  if s.pc.extractLsb' 0 2 = 0#2 then
    match memRead s s.pc .word with
    | some w => .word w
    | none => .notAdmitted
  else .misaligned

/-- Phase 7 on the outcome of the instruction (R142). -/
def retire (slot : Bool) : Result → Result
  | .next s => .next (sequence slot s)
  | .fault r => .fault r
  | .refused r => .refused r

/-- Phases 3 to 7 for a fetched word, on the state phase 2 leaves (R100). The sentinel is the
instruction `halt` of the decoder; the delay-slot guard of phase 5 stands in the CTIs. -/
def runWord (execute : Instr → State → Result) (w : Word) (s : State) : Result :=
  match decode w with
  | .ok i => retire s.pendValid (execute i s)
  | .error _ => .next (raise (.illegalInstruction w) s)

/-- One step (R100). A fetch that is not admitted ends the run with `pc` and `x[0]` as they were
(R101, D9). No step is defined once the run has ended (R26): log entry 5. -/
def cycle (execute : Instr → State → Result) (s : State) : Result :=
  match s.term with
  | .running =>
    match fetch s with
    | .misaligned => .refused .misalignedFetch
    | .notAdmitted => .next (raise (.memoryAccessFault s.pc .word) s)
    | .word w => runWord execute w (advance s)
  | .haltedClean | .haltedError => .fault .runEnded

end Sys2Proof.Machine
end

