-- ==== Sys2Proof/Machine/Control.lean ====
section
/-! DEFINITION. The control-transfer instructions (44_control.md rules R146 to R152) and the halt
sentinel (40_cycle.md rule R103). `s.pc` is `pc_inc` throughout (R102). -/

namespace Sys2Proof.Machine

/-- `jr`: any target, a misaligned one included (R145, R146). -/
def execJr (rs : Reg) (s : State) : Result := controlTransfer (some (s.reg rs)) s

/-- `beq` (R147). -/
def execBeq (rs rt : Reg) (imm : Imm16) (s : State) : Result :=
  branchIf (s.reg rs == s.reg rt) imm s

/-- `bne` (R148). -/
def execBne (rs rt : Reg) (imm : Imm16) (s : State) : Result :=
  branchIf (s.reg rs != s.reg rt) imm s

/-- `blez`, signed (R149). -/
def execBlez (rs : Reg) (imm : Imm16) (s : State) : Result :=
  branchIf (decide ((s.reg rs).toInt ≤ 0)) imm s

/-- `bgtz`, signed (R150). -/
def execBgtz (rs : Reg) (imm : Imm16) (s : State) : Result :=
  branchIf (decide (0 < (s.reg rs).toInt)) imm s

/-- `j` (R151). -/
def execJ (target : Target26) (s : State) : Result :=
  controlTransfer (some (jumpTarget s.pc target)) s

/-- `jal`: the link is written when jal executes (R152). -/
def execJal (target : Target26) (s : State) : Result :=
  controlTransfer (some (jumpTarget s.pc target)) (s.setReg Config.linkReg (linkValue s.pc))

/-- The halt sentinel: the run ends cleanly and nothing is executed (R103). -/
def execHalt (s : State) : Result := .next (haltClean s)

end Sys2Proof.Machine
end

