-- ==== Sys2Proof/Machine/ImmediateAlu.lean ====
section
/-! DEFINITION. The register-immediate instructions (42_immediate_alu.md rules R122 to R129). -/

namespace Sys2Proof.Machine

/-- `addi`: the check uses x[rs] and the sign-extended immediate (R123, C3). -/
def execAddi (rt rs : Reg) (imm : Imm16) (s : State) : Result :=
  let a := s.reg rs
  let b := sext32 imm
  let r := a + b
  writeChecked rt r (ovfAdd a b r) a b s

/-- `addiu`: the immediate is sign-extended, and nothing is checked (R124). -/
def execAddiu (rt rs : Reg) (imm : Imm16) (s : State) : Result :=
  .next (s.setReg rt (s.reg rs + sext32 imm))

/-- `andi`, zero-extended (R125). -/
def execAndi (rt rs : Reg) (imm : Imm16) (s : State) : Result :=
  .next (s.setReg rt (s.reg rs &&& zext32 imm))

/-- `ori`, zero-extended and inclusive (R126, C2). -/
def execOri (rt rs : Reg) (imm : Imm16) (s : State) : Result :=
  .next (s.setReg rt (s.reg rs ||| zext32 imm))

/-- `slti`, signed (R127). -/
def execSlti (rt rs : Reg) (imm : Imm16) (s : State) : Result :=
  .next (s.setReg rt (boolWord (ltSigned (s.reg rs) (sext32 imm))))

/-- `sltiu`: the immediate is sign-extended and then compared unsigned (R128). -/
def execSltiu (rt rs : Reg) (imm : Imm16) (s : State) : Result :=
  .next (s.setReg rt (boolWord (ltUnsigned (s.reg rs) (sext32 imm))))

/-- `lui` (R129). -/
def execLui (rt : Reg) (imm : Imm16) (s : State) : Result :=
  .next (s.setReg rt (upperImm imm))

end Sys2Proof.Machine
end

