-- ==== Sys2Proof/Machine/LoadStore.lean ====
section
/-! DEFINITION. The loads and stores (43_load_store.md rules R130 to R136). -/

namespace Sys2Proof.Machine

/-- `lw` (R131). -/
def execLw (rt rs : Reg) (imm : Imm16) (s : State) : Result :=
  load .word rt (effAddr (s.reg rs) imm) s

/-- `lbu`, zero-extended (R132). -/
def execLbu (rt rs : Reg) (imm : Imm16) (s : State) : Result :=
  load .byte rt (effAddr (s.reg rs) imm) s

/-- `lhu`, zero-extended (R133). -/
def execLhu (rt rs : Reg) (imm : Imm16) (s : State) : Result :=
  load .half rt (effAddr (s.reg rs) imm) s

/-- `sw` (R134). -/
def execSw (rt rs : Reg) (imm : Imm16) (s : State) : Result :=
  store .word (s.reg rt) (effAddr (s.reg rs) imm) s

/-- `sb`: only the low byte is stored (R135). -/
def execSb (rt rs : Reg) (imm : Imm16) (s : State) : Result :=
  store .byte (s.reg rt) (effAddr (s.reg rs) imm) s

/-- `sh`: only the low 16 bits are stored (R136). -/
def execSh (rt rs : Reg) (imm : Imm16) (s : State) : Result :=
  store .half (s.reg rt) (effAddr (s.reg rs) imm) s

end Sys2Proof.Machine
end

