-- ==== Sys2Proof/Machine/RegisterAlu.lean ====
section
/-! DEFINITION. The register-register instructions (41_register_alu.md rules R110 to R121). -/

namespace Sys2Proof.Machine

/-- `add`: the wrapped sum is written before the overflow check (R111). -/
def execAdd (rd rs rt : Reg) (s : State) : Result :=
  let a := s.reg rs
  let b := s.reg rt
  let r := a + b
  writeChecked rd r (ovfAdd a b r) a b s

/-- `addu` (R112). -/
def execAddu (rd rs rt : Reg) (s : State) : Result :=
  .next (s.setReg rd (s.reg rs + s.reg rt))

/-- `sub`: the wrapped difference is written before the overflow check (R113). -/
def execSub (rd rs rt : Reg) (s : State) : Result :=
  let a := s.reg rs
  let b := s.reg rt
  let r := a - b
  writeChecked rd r (ovfSub a b r) a b s

/-- `subu` (R114). -/
def execSubu (rd rs rt : Reg) (s : State) : Result :=
  .next (s.setReg rd (s.reg rs - s.reg rt))

/-- `and` (R115). -/
def execAnd (rd rs rt : Reg) (s : State) : Result :=
  .next (s.setReg rd (s.reg rs &&& s.reg rt))

/-- `or`, inclusive (R116, C2). -/
def execOr (rd rs rt : Reg) (s : State) : Result :=
  .next (s.setReg rd (s.reg rs ||| s.reg rt))

/-- `nor` (R117, C2). -/
def execNor (rd rs rt : Reg) (s : State) : Result :=
  .next (s.setReg rd (~~~(s.reg rs ||| s.reg rt)))

/-- `slt`, signed (R118). -/
def execSlt (rd rs rt : Reg) (s : State) : Result :=
  .next (s.setReg rd (boolWord (ltSigned (s.reg rs) (s.reg rt))))

/-- `sltu`, unsigned (R119). -/
def execSltu (rd rs rt : Reg) (s : State) : Result :=
  .next (s.setReg rd (boolWord (ltUnsigned (s.reg rs) (s.reg rt))))

/-- `sll` (R120). -/
def execSll (rd rt : Reg) (shamt : Nat) (s : State) : Result :=
  .next (s.setReg rd (s.reg rt <<< shamt))

/-- `srl`, zero filling (R121). -/
def execSrl (rd rt : Reg) (shamt : Nat) (s : State) : Result :=
  .next (s.setReg rd (s.reg rt >>> shamt))

end Sys2Proof.Machine
end

