-- ==== Sys2Proof/Machine/Step.lean ====
section
/-! DEFINITION. The step function (R100) and the placing of one instruction where it fetches. -/

namespace Sys2Proof.Machine

/-- One pass of the Execution Loop (R1, R100). -/
def step (s : State) : Host.Outcome State Fault Refusal := cycle exec s

/-- `s` with the instruction whose bits are `w` (the low `nbits` of them, the rest 0) stored at the
PC, where `step` fetches next; nothing else changes. It stands for the loader (R181, log entry
12). -/
def State.withFetchWord (s : State) (nbits w : Nat) : State :=
  { s with mem := s.mem.write s.pc .word (BitVec.ofNat 32 (w % 2 ^ nbits)) }

end Sys2Proof.Machine
end

