-- ==== Sys2Proof/Machine/Launch.lean ====
section
/-! DEFINITION. The launch: the reset state with the open launch parameters filled in (R5, R180,
R181). -/

namespace Sys2Proof.Machine

/-- The state before the first step of a launch: the reset values of R33, the contract `c`
(memAdmit and MEM_SIZE), and as INIT_MEM the image loaded at address 0 over the contents `rest`
(R181, D22). -/
def State.launch (c : Admission) (rest : Memory) (image : List Byte) : State :=
  { State.reset with admission := c, mem := rest.load 0 image }

end Sys2Proof.Machine
end

