-- ==== Sys2Proof/Machine/Output.lean ====
section
/-! DEFINITION. The outputs of the block and what is observed of a run (40_cycle.md rules R108 and
R109, 60_exceptions.md rules R164 and R166). The reset input is `State.reset` and `State.launch`. -/

namespace Sys2Proof.Machine

/-- The two states of the sequencer (R140). -/
inductive SequencerState where
  | idle
  | delayPending (target : Word)
  deriving DecidableEq, Repr

/-- The sequencer state that pend_valid and pend_target encode (R24, R140). -/
def State.sequencer (s : State) : SequencerState :=
  if s.pendValid then .delayPending s.pendTarget else .idle

/-- The output `status` (R109, D17). -/
def Term.status : Term → BitVec 2
  | .running => 0
  | .haltedClean => 1
  | .haltedError => 2

/-- The output encoding of `cause` (R27, D17). -/
def Cause.code : Cause → BitVec 2
  | .none => 0
  | .illegalInstruction => 1
  | .arithmeticOverflow => 2
  | .memoryAccessFault => 3

/-- The output `exit_code`, valid when the run has ended (R109, R164). -/
def State.exitCode (s : State) : Option (BitVec 8) :=
  match s.term with
  | .running => none
  | .haltedClean => some Config.exitClean
  | .haltedError => some Config.exitError

/-- What a run shows at its end, and all it shows (R108). -/
structure Observation where
  term : Term
  regs : Vector Word 32
  mem : Memory
  cause : Cause
  deriving DecidableEq, Repr

/-- The observation handed to the dump sink, once the run has ended (R108, R166). -/
def State.observe (s : State) : Option Observation :=
  match s.term with
  | .running => none
  | .haltedClean | .haltedError =>
    some { term := s.term, regs := s.regs, mem := s.mem, cause := s.cause }

end Sys2Proof.Machine
end

