-- ==== Sys2Proof/Safety.lean ====
section
/-! DEFINITION. What a run and a clean run are, the invariant every step keeps, and the frame
predicates that statements about instructions are written in. -/

namespace Sys2Proof.Machine

/-! ### Runs (R107, R108) -/

/-- The run has ended (R108). -/
abbrev State.ended (s : State) : Prop := s.term ≠ .running

/-- `k` steps take `s` to `t`, each answering a next state (R107). -/
def Runs (k : Nat) (s t : State) : Prop := Sys2Proof.core.run k s = .next t

/-- A clean run: it ends in HaltedClean, so no error and no refusal occurred (R103, R107, R172). -/
def EndsClean (s : State) : Prop := ∃ k t, Runs k s t ∧ t.term = .haltedClean

/-! ### The invariant -/

/-- The error cause and the diagnostic events agree with the termination state: HaltedError has
exactly one event, of the recorded cause, and every other state has none (R27, R165, R167). -/
abbrev State.outputsAgree (s : State) : Prop :=
  (s.cause = .none ↔ s.term ≠ .haltedError) ∧
    s.diags.map Diag.cause = (if s.term = .haltedError then [s.cause] else [])

/-- What every step keeps: the memory's canonical form, and agreement of the outputs. -/
abbrev State.Inv (s : State) : Prop := s.mem.wf = true ∧ s.outputsAgree

/-- A word is a multiple of 4. -/
abbrev Aligned4 (a : Word) : Prop := a.toNat % 4 = 0

/-- The PC, and the pending target if there is one, are multiples of 4 (R25, R145). -/
abbrev State.flowAligned (s : State) : Prop :=
  Aligned4 s.pc ∧ (s.pendValid = true → Aligned4 s.pendTarget)

/-! ### Frames. Each says what `t` keeps of `s`; memory is read byte by byte. -/

/-- Every register but `rd` is kept. -/
def KeepsRegsBut (rd : Reg) (s t : State) : Prop := ∀ r, r ≠ rd → t.reg r = s.reg r

/-- Every register is kept. -/
def KeepsRegs (s t : State) : Prop := ∀ r, t.reg r = s.reg r

/-- Every byte of memory is kept. -/
def KeepsMem (s t : State) : Prop := ∀ a, t.byteAt a = s.byteAt a

/-- Every byte of memory outside the `n` bytes from `ea` on is kept (addresses mod 2^32). -/
def KeepsMemOutside (ea : Word) (n : Nat) (s t : State) : Prop :=
  ∀ a, (∀ k, k < n → a ≠ ea + BitVec.ofNat 32 k) → t.byteAt a = s.byteAt a

/-- The PC and the pending redirect are kept. -/
def KeepsFlow (s t : State) : Prop :=
  t.pc = s.pc ∧ t.pendValid = s.pendValid ∧ t.pendTarget = s.pendTarget

/-- The termination state, the cause and the diagnostic events are kept. -/
def KeepsRun (s t : State) : Prop := t.term = s.term ∧ t.cause = s.cause ∧ t.diags = s.diags

/-- Nothing but register `rd` changes. -/
def OnlyReg (rd : Reg) (s t : State) : Prop :=
  KeepsRegsBut rd s t ∧ KeepsMem s t ∧ KeepsFlow s t ∧ KeepsRun s t ∧ t.admission = s.admission

/-- Nothing but register `rd` and the record of an error changes. -/
def OnlyRegAndError (rd : Reg) (s t : State) : Prop :=
  KeepsRegsBut rd s t ∧ KeepsMem s t ∧ KeepsFlow s t ∧ t.admission = s.admission

/-- `t` records the error `d`, raised over the outputs of `s` (R165). -/
def Raised (d : Diag) (s t : State) : Prop :=
  t.term = .haltedError ∧ t.cause = d.cause ∧ t.diags = s.diags ++ [d]

/-- Nothing but the record of the error `d` changes. -/
def OnlyError (d : Diag) (s t : State) : Prop :=
  Raised d s t ∧ KeepsRegs s t ∧ KeepsMem s t ∧ KeepsFlow s t ∧ t.admission = s.admission

/-- Nothing but the `n` bytes of memory from `ea` on changes. -/
def OnlyBytes (ea : Word) (n : Nat) (s t : State) : Prop :=
  KeepsMemOutside ea n s t ∧ KeepsRegs s t ∧ KeepsFlow s t ∧ KeepsRun s t ∧
    t.admission = s.admission

/-- A redirect to `target` becomes pending, and the PC and everything but the registers is kept. -/
def Redirects (target : Word) (s t : State) : Prop :=
  t.pendValid = true ∧ t.pendTarget = target ∧ t.pc = s.pc ∧ KeepsMem s t ∧ KeepsRun s t ∧
    t.admission = s.admission

/-- The word at the PC, assembled from its four bytes, most significant first (R41, R101). -/
def State.wordAtPc (s : State) : Word :=
  wordOfBytes (s.byteAt s.pc) (s.byteAt (s.pc + 1)) (s.byteAt (s.pc + 2)) (s.byteAt (s.pc + 3))

/-- A step from `s` gets past its fetch: Running, the PC a multiple of 4, the access admitted. -/
abbrev State.fetchable (s : State) : Prop :=
  s.term = .running ∧ Aligned4 s.pc ∧ s.admission.admits s.pc .word = true

end Sys2Proof.Machine
end

