-- ==== Sys2Proof/Certificates/Slice0/Obligations.lean ====
section
/-! DEFINITION. The statements for the provers. Each docstring names the rule of spec/ it follows.
The numbers in `decode (wordR …)` and `decode (wordI …)` are those of the rules' "Encoding" lines,
which the spec marks as general knowledge (G1, G2; log entry 9); that a field outside them is ignored
whatever its value is the spec's decision D14. `Raised` and `OnlyError` are R165's raise; that it
emits its event for a memory fault too is the spec's decision D18. The frames (`OnlyReg`, `OnlyBytes`,
…) are defined in Sys2Proof/Safety.lean. A statement about `exec` is about the state phase 2 leaves,
so `s.pc` is `pc_inc` in it (R102). Where a docstring names a decision D<n> or a log entry, that part
is the spec's or the model's choice. -/

open Sys2Proof Sys2Proof.Machine

/-! ### Values -/

/-- R7 and R8: sign extension copies bit 15 into the upper half; zero extension of 16 and of 8 bits
keeps the value. -/
def Obligations.ExtensionUnitExtends : Prop :=
  (∀ v : Imm16, sext32 v =
      if v.getLsbD 15 then 0xFFFF0000#32 ||| v.setWidth 32 else v.setWidth 32) ∧
  (∀ v : Imm16, (zext32 v).toNat = v.toNat) ∧
  (∀ v : Byte, (zext32 v).toNat = v.toNat)

/-- R9: the displacement is the sign-extended immediate shifted left by 2, mod 2^32; as a signed
number it is four times the immediate, always a multiple of 4, and 0 for 0. -/
def Obligations.BranchDisplacementIsFourTimesTheImmediate : Prop :=
  (∀ v : Imm16, (bdisp v).toNat = (sext32 v).toNat * 4 % 2 ^ 32 ∧ (bdisp v).toInt = 4 * v.toInt ∧
    (bdisp v).toNat % 4 = 0) ∧
  bdisp 0 = 0

/-- R10 (the subtract form is the spec's decision D13): each checker is its sign rule, and on the
wrapped result it says exactly that the true result is outside [-2^31, 2^31 - 1]. -/
def Obligations.OverflowCheckersAreExact : Prop :=
  (∀ a b r : Word, ovfAdd a b r = true ↔
    a.getLsbD 31 = b.getLsbD 31 ∧ r.getLsbD 31 ≠ a.getLsbD 31) ∧
  (∀ a b r : Word, ovfSub a b r = true ↔
    a.getLsbD 31 ≠ b.getLsbD 31 ∧ r.getLsbD 31 ≠ a.getLsbD 31) ∧
  (∀ a b : Word, ovfAdd a b (a + b) = true ↔
    a.toInt + b.toInt < -2 ^ 31 ∨ 2 ^ 31 ≤ a.toInt + b.toInt) ∧
  (∀ a b : Word, ovfSub a b (a - b) = true ↔
    a.toInt - b.toInt < -2 ^ 31 ∨ 2 ^ 31 ≤ a.toInt - b.toInt)

/-! ### Register-register instructions -/

/-- R112 and R114: addu and subu complete from every state, write the result mod 2^32 to x[rd] (r0
included: R22), and change nothing else; shamt is ignored. -/
def Obligations.AdduAndSubuWriteTheWrappedResult : Prop :=
  ∀ (rd rs rt : Reg) (sh : BitVec 5) (s : State),
    (decode (wordR rs rt rd sh 0x21#6) = .ok (.addu rd rs rt) ∧
      ∃ t, exec (.addu rd rs rt) s = .next t ∧
        (t.reg rd).toNat = ((s.reg rs).toNat + (s.reg rt).toNat) % 2 ^ 32 ∧ OnlyReg rd s t) ∧
    (decode (wordR rs rt rd sh 0x23#6) = .ok (.subu rd rs rt) ∧
      ∃ t, exec (.subu rd rs rt) s = .next t ∧
        ((t.reg rd).toNat : Int) = (((s.reg rs).toNat : Int) - (s.reg rt).toNat) % 2 ^ 32 ∧
        OnlyReg rd s t)

/-- R115, R116 and R117: and, or (inclusive) and nor work bit by bit, complete from every state and
change only x[rd]. -/
def Obligations.AndOrNorWorkBitwise : Prop :=
  ∀ (rd rs rt : Reg) (sh : BitVec 5) (s : State),
    (decode (wordR rs rt rd sh 0x24#6) = .ok (.and rd rs rt) ∧
      ∃ t, exec (.and rd rs rt) s = .next t ∧ OnlyReg rd s t ∧
        ∀ k, k < 32 →
          (t.reg rd).getLsbD k = ((s.reg rs).getLsbD k && (s.reg rt).getLsbD k)) ∧
    (decode (wordR rs rt rd sh 0x25#6) = .ok (.or rd rs rt) ∧
      ∃ t, exec (.or rd rs rt) s = .next t ∧ OnlyReg rd s t ∧
        ∀ k, k < 32 →
          (t.reg rd).getLsbD k = ((s.reg rs).getLsbD k || (s.reg rt).getLsbD k)) ∧
    (decode (wordR rs rt rd sh 0x27#6) = .ok (.nor rd rs rt) ∧
      ∃ t, exec (.nor rd rs rt) s = .next t ∧ OnlyReg rd s t ∧
        ∀ k, k < 32 →
          (t.reg rd).getLsbD k = !((s.reg rs).getLsbD k || (s.reg rt).getLsbD k))

/-- R118 and R119: slt compares signed and sltu unsigned readings, each writes 1 or 0, completes
from every state and changes only x[rd]. -/
def Obligations.SltAndSltuCompare : Prop :=
  ∀ (rd rs rt : Reg) (sh : BitVec 5) (s : State),
    (decode (wordR rs rt rd sh 0x2A#6) = .ok (.slt rd rs rt) ∧
      ∃ t, exec (.slt rd rs rt) s = .next t ∧
        (t.reg rd).toNat = (if (s.reg rs).toInt < (s.reg rt).toInt then 1 else 0) ∧
        OnlyReg rd s t) ∧
    (decode (wordR rs rt rd sh 0x2B#6) = .ok (.sltu rd rs rt) ∧
      ∃ t, exec (.sltu rd rs rt) s = .next t ∧
        (t.reg rd).toNat = (if (s.reg rs).toNat < (s.reg rt).toNat then 1 else 0) ∧
        OnlyReg rd s t)

/-- R120 and R121: sll multiplies by 2^shamt mod 2^32, srl divides, for shamt 0 to 31; both complete
from every state and change only x[rd]; rs is ignored. -/
def Obligations.SllAndSrlShiftLogically : Prop :=
  ∀ (rd rs rt : Reg) (sh : BitVec 5) (s : State),
    (decode (wordR rs rt rd sh 0x00#6) = .ok (.sll rd rt sh.toNat) ∧
      ∃ t, exec (.sll rd rt sh.toNat) s = .next t ∧
        (t.reg rd).toNat = (s.reg rt).toNat * 2 ^ sh.toNat % 2 ^ 32 ∧ OnlyReg rd s t) ∧
    (decode (wordR rs rt rd sh 0x02#6) = .ok (.srl rd rt sh.toNat) ∧
      ∃ t, exec (.srl rd rt sh.toNat) s = .next t ∧
        (t.reg rd).toNat = (s.reg rt).toNat / 2 ^ sh.toNat ∧ OnlyReg rd s t)

/-- R111 and R123: add and addi write the wrapped sum of the operands read, then raise
ArithmeticOverflow exactly when the signed sum is outside [-2^31, 2^31 - 1]. Both answer a next
state from every state; without overflow only the destination changes. -/
def Obligations.AddAndAddiWriteThenRaiseOnOverflow : Prop :=
  ∀ (rd rs rt : Reg) (sh : BitVec 5) (imm : Imm16) (s : State),
    (decode (wordR rs rt rd sh 0x20#6) = .ok (.add rd rs rt) ∧
      ∃ t, exec (.add rd rs rt) s = .next t ∧
        (t.reg rd).toNat = ((s.reg rs).toNat + (s.reg rt).toNat) % 2 ^ 32 ∧
        OnlyRegAndError rd s t ∧
        if -2 ^ 31 ≤ (s.reg rs).toInt + (s.reg rt).toInt ∧
            (s.reg rs).toInt + (s.reg rt).toInt < 2 ^ 31
        then KeepsRun s t
        else Raised (.arithmeticOverflow (s.reg rs) (s.reg rt)) s t) ∧
    (decode (wordI 0x08#6 rs rt imm) = .ok (.addi rt rs imm) ∧
      ∃ t, exec (.addi rt rs imm) s = .next t ∧
        ((t.reg rt).toNat : Int) = ((s.reg rs).toNat + imm.toInt) % 2 ^ 32 ∧
        OnlyRegAndError rt s t ∧
        if -2 ^ 31 ≤ (s.reg rs).toInt + imm.toInt ∧ (s.reg rs).toInt + imm.toInt < 2 ^ 31
        then KeepsRun s t
        else Raised (.arithmeticOverflow (s.reg rs) (sext32 imm)) s t)

/-- R113; its overflow rule is the spec's decision D13, so the basis is derived. sub writes the
wrapped difference, then raises ArithmeticOverflow exactly when the signed difference is outside
[-2^31, 2^31 - 1]. -/
def Obligations.SubWritesThenRaisesOnOverflow : Prop :=
  ∀ (rd rs rt : Reg) (sh : BitVec 5) (s : State),
    decode (wordR rs rt rd sh 0x22#6) = .ok (.sub rd rs rt) ∧
    ∃ t, exec (.sub rd rs rt) s = .next t ∧
      ((t.reg rd).toNat : Int) = (((s.reg rs).toNat : Int) - (s.reg rt).toNat) % 2 ^ 32 ∧
      OnlyRegAndError rd s t ∧
      if -2 ^ 31 ≤ (s.reg rs).toInt - (s.reg rt).toInt ∧
          (s.reg rs).toInt - (s.reg rt).toInt < 2 ^ 31
      then KeepsRun s t
      else Raised (.arithmeticOverflow (s.reg rs) (s.reg rt)) s t

/-! ### Register-immediate instructions -/

/-- R124 and R129: addiu adds the sign-extended immediate mod 2^32 and never raises; lui places the
immediate in the upper half over zeros and ignores rs. Both complete from every state and change
only x[rt]. -/
def Obligations.AddiuAndLuiWriteTheirResult : Prop :=
  ∀ (rs rt : Reg) (imm : Imm16) (s : State),
    (decode (wordI 0x09#6 rs rt imm) = .ok (.addiu rt rs imm) ∧
      ∃ t, exec (.addiu rt rs imm) s = .next t ∧
        ((t.reg rt).toNat : Int) = ((s.reg rs).toNat + imm.toInt) % 2 ^ 32 ∧ OnlyReg rt s t) ∧
    (decode (wordI 0x0F#6 rs rt imm) = .ok (.lui rt imm) ∧
      ∃ t, exec (.lui rt imm) s = .next t ∧ (t.reg rt).toNat = imm.toNat * 2 ^ 16 ∧
        OnlyReg rt s t)

/-- R125 and R126: andi and ori use the zero-extended immediate (its bits 16 to 31 are false), bit
by bit and inclusive; both complete from every state and change only x[rt]. -/
def Obligations.AndiAndOriUseTheZeroExtendedImmediate : Prop :=
  ∀ (rs rt : Reg) (imm : Imm16) (s : State),
    (decode (wordI 0x0C#6 rs rt imm) = .ok (.andi rt rs imm) ∧
      ∃ t, exec (.andi rt rs imm) s = .next t ∧ OnlyReg rt s t ∧
        ∀ k, k < 32 → (t.reg rt).getLsbD k =
          ((s.reg rs).getLsbD k && (decide (k < 16) && imm.getLsbD k))) ∧
    (decode (wordI 0x0D#6 rs rt imm) = .ok (.ori rt rs imm) ∧
      ∃ t, exec (.ori rt rs imm) s = .next t ∧ OnlyReg rt s t ∧
        ∀ k, k < 32 → (t.reg rt).getLsbD k =
          ((s.reg rs).getLsbD k || (decide (k < 16) && imm.getLsbD k)))

/-- R127 and R128: both compare with the sign-extended immediate, slti signed and sltiu unsigned;
both complete from every state and change only x[rt]. -/
def Obligations.SltiAndSltiuCompareWithTheSignExtendedImmediate : Prop :=
  ∀ (rs rt : Reg) (imm : Imm16) (s : State),
    (decode (wordI 0x0A#6 rs rt imm) = .ok (.slti rt rs imm) ∧
      ∃ t, exec (.slti rt rs imm) s = .next t ∧
        (t.reg rt).toNat = (if (s.reg rs).toInt < imm.toInt then 1 else 0) ∧ OnlyReg rt s t) ∧
    (decode (wordI 0x0B#6 rs rt imm) = .ok (.sltiu rt rs imm) ∧
      ∃ t, exec (.sltiu rt rs imm) s = .next t ∧
        (t.reg rt).toNat = (if ((s.reg rs).toNat : Int) < imm.toInt % 2 ^ 32 then 1 else 0) ∧
        OnlyReg rt s t)

/-! ### Loads, stores and memory -/

/-- R130's address and R131, R132: an admitted lw reads four bytes, most significant first, and an
admitted lbu one byte, zero-extended; only x[rt] changes. An access that is not admitted raises
MemoryAccessFault and changes nothing else, x[rt] included. Under the default admission lw is not
admitted exactly on a misaligned address or past MEM_SIZE, and lbu exactly past MEM_SIZE. -/
def Obligations.LwAndLbuReadMemory : Prop :=
  ∀ (rs rt : Reg) (imm : Imm16) (s : State) (ea : Word),
    ea = effAddr (s.reg rs) imm →
    (ea.toNat : Int) = ((s.reg rs).toNat + imm.toInt) % 2 ^ 32 ∧
    (decode (wordI 0x23#6 rs rt imm) = .ok (.lw rt rs imm) ∧
      (s.admission.admits ea .word = true →
        ∃ t, exec (.lw rt rs imm) s = .next t ∧ OnlyReg rt s t ∧
          (t.reg rt).toNat = (s.byteAt ea).toNat * 2 ^ 24 + (s.byteAt (ea + 1)).toNat * 2 ^ 16 +
            (s.byteAt (ea + 2)).toNat * 2 ^ 8 + (s.byteAt (ea + 3)).toNat) ∧
      (s.admission.admits ea .word = false →
        ∃ t, exec (.lw rt rs imm) s = .next t ∧ OnlyError (.memoryAccessFault ea .word) s t) ∧
      ∀ n, s.admission = .sized n →
        (s.admission.admits ea .word = false ↔ ea.toNat % 4 ≠ 0 ∨ n < ea.toNat + 4)) ∧
    (decode (wordI 0x24#6 rs rt imm) = .ok (.lbu rt rs imm) ∧
      (s.admission.admits ea .byte = true →
        ∃ t, exec (.lbu rt rs imm) s = .next t ∧ OnlyReg rt s t ∧
          (t.reg rt).toNat = (s.byteAt ea).toNat) ∧
      (s.admission.admits ea .byte = false →
        ∃ t, exec (.lbu rt rs imm) s = .next t ∧ OnlyError (.memoryAccessFault ea .byte) s t) ∧
      ∀ n, s.admission = .sized n → (s.admission.admits ea .byte = false ↔ n ≤ ea.toNat))

/-- R133; the halfword byte order is the spec's decision D7, so the basis is derived. An admitted
lhu reads two bytes, most significant first, zero-extended, and changes only x[rt]; otherwise it
raises MemoryAccessFault and changes nothing else. -/
def Obligations.LhuReadsABigEndianHalfword : Prop :=
  ∀ (rs rt : Reg) (imm : Imm16) (s : State) (ea : Word),
    ea = effAddr (s.reg rs) imm →
    decode (wordI 0x25#6 rs rt imm) = .ok (.lhu rt rs imm) ∧
    (s.admission.admits ea .half = true →
      ∃ t, exec (.lhu rt rs imm) s = .next t ∧ OnlyReg rt s t ∧
        (t.reg rt).toNat = (s.byteAt ea).toNat * 2 ^ 8 + (s.byteAt (ea + 1)).toNat) ∧
    (s.admission.admits ea .half = false →
      ∃ t, exec (.lhu rt rs imm) s = .next t ∧ OnlyError (.memoryAccessFault ea .half) s t) ∧
    ∀ n, s.admission = .sized n →
      (s.admission.admits ea .half = false ↔ ea.toNat % 2 ≠ 0 ∨ n < ea.toNat + 2)

/-- R135; that a store that is not admitted writes no byte is the spec's decision D12 (log entry 14),
so the basis is derived. An admitted sb stores the low byte of x[rt] at the effective address and
changes no other byte and nothing else; otherwise it raises MemoryAccessFault and changes nothing
else. The premise `s.mem.wf` is the canonical form every step keeps (StepKeepsTheInvariant). -/
def Obligations.SbStoresTheLowByte : Prop :=
  ∀ (rs rt : Reg) (imm : Imm16) (s : State) (ea : Word),
    s.mem.wf = true → ea = effAddr (s.reg rs) imm →
    decode (wordI 0x28#6 rs rt imm) = .ok (.sb rt rs imm) ∧
    (s.admission.admits ea .byte = true →
      ∃ t, exec (.sb rt rs imm) s = .next t ∧ OnlyBytes ea 1 s t ∧
        (t.byteAt ea).toNat = (s.reg rt).toNat % 2 ^ 8) ∧
    (s.admission.admits ea .byte = false →
      ∃ t, exec (.sb rt rs imm) s = .next t ∧ OnlyError (.memoryAccessFault ea .byte) s t)

/-- R134 and R136; that a store that is not admitted writes no byte is the spec's decision D12, and
the halfword order is D7, so the basis is derived. sw stores the four bytes of x[rt] and sh its low
two, most significant first; no other byte and nothing else changes. Otherwise MemoryAccessFault is
raised and nothing else changes. -/
def Obligations.SwAndShStoreBigEndian : Prop :=
  ∀ (rs rt : Reg) (imm : Imm16) (s : State) (ea : Word),
    s.mem.wf = true → ea = effAddr (s.reg rs) imm →
    (decode (wordI 0x2B#6 rs rt imm) = .ok (.sw rt rs imm) ∧
      (s.admission.admits ea .word = true →
        ∃ t, exec (.sw rt rs imm) s = .next t ∧ OnlyBytes ea 4 s t ∧
          (t.byteAt ea).toNat = (s.reg rt).toNat / 2 ^ 24 ∧
          (t.byteAt (ea + 1)).toNat = (s.reg rt).toNat / 2 ^ 16 % 2 ^ 8 ∧
          (t.byteAt (ea + 2)).toNat = (s.reg rt).toNat / 2 ^ 8 % 2 ^ 8 ∧
          (t.byteAt (ea + 3)).toNat = (s.reg rt).toNat % 2 ^ 8) ∧
      (s.admission.admits ea .word = false →
        ∃ t, exec (.sw rt rs imm) s = .next t ∧ OnlyError (.memoryAccessFault ea .word) s t)) ∧
    (decode (wordI 0x29#6 rs rt imm) = .ok (.sh rt rs imm) ∧
      (s.admission.admits ea .half = true →
        ∃ t, exec (.sh rt rs imm) s = .next t ∧ OnlyBytes ea 2 s t ∧
          (t.byteAt ea).toNat = (s.reg rt).toNat / 2 ^ 8 % 2 ^ 8 ∧
          (t.byteAt (ea + 1)).toNat = (s.reg rt).toNat % 2 ^ 8) ∧
      (s.admission.admits ea .half = false →
        ∃ t, exec (.sh rt rs imm) s = .next t ∧ OnlyError (.memoryAccessFault ea .half) s t))

/-- R45, for every width and address: an admitted write followed by a read of the same bytes gives
the low bytes of the value written. -/
def Obligations.ReadAfterWriteReturnsTheValue : Prop :=
  ∀ (s : State) (a v : Word) (w : Width),
    s.mem.wf = true → s.admission.admits a w = true →
    ∃ t u, memWrite s a w v = some t ∧ memRead t a w = some u ∧
      u.toNat = v.toNat % 2 ^ (8 * w.bytes)

/-- R54 (with D7 for halfwords): every byte and every halfword of a word just written is its
big-endian part; a byte or a halfword written anywhere into the word replaces that part of it only;
and a byte or halfword write changes no byte outside its own. -/
def Obligations.MixedWidthAccessIsBigEndian : Prop :=
  (∀ (m : Memory) (a v : Word), m.wf = true →
    ((m.write a .word v).read a .byte).toNat = v.toNat / 2 ^ 24 ∧
    ((m.write a .word v).read (a + 1) .byte).toNat = v.toNat / 2 ^ 16 % 2 ^ 8 ∧
    ((m.write a .word v).read (a + 2) .byte).toNat = v.toNat / 2 ^ 8 % 2 ^ 8 ∧
    ((m.write a .word v).read (a + 3) .byte).toNat = v.toNat % 2 ^ 8 ∧
    ((m.write a .word v).read a .half).toNat = v.toNat / 2 ^ 16 ∧
    ((m.write a .word v).read (a + 1) .half).toNat = v.toNat / 2 ^ 8 % 2 ^ 16 ∧
    ((m.write a .word v).read (a + 2) .half).toNat = v.toNat % 2 ^ 16) ∧
  (∀ (m : Memory) (a v b : Word), m.wf = true →
    (((m.write a .word v).write a .byte b).read a .word).toNat =
      b.toNat % 2 ^ 8 * 2 ^ 24 + v.toNat % 2 ^ 24 ∧
    (((m.write a .word v).write (a + 1) .byte b).read a .word).toNat =
      v.toNat / 2 ^ 24 * 2 ^ 24 + b.toNat % 2 ^ 8 * 2 ^ 16 + v.toNat % 2 ^ 16 ∧
    (((m.write a .word v).write (a + 2) .byte b).read a .word).toNat =
      v.toNat / 2 ^ 16 * 2 ^ 16 + b.toNat % 2 ^ 8 * 2 ^ 8 + v.toNat % 2 ^ 8 ∧
    (((m.write a .word v).write (a + 3) .byte b).read a .word).toNat =
      v.toNat / 2 ^ 8 * 2 ^ 8 + b.toNat % 2 ^ 8 ∧
    (((m.write a .word v).write a .half b).read a .word).toNat =
      b.toNat % 2 ^ 16 * 2 ^ 16 + v.toNat % 2 ^ 16 ∧
    (((m.write a .word v).write (a + 1) .half b).read a .word).toNat =
      v.toNat / 2 ^ 24 * 2 ^ 24 + b.toNat % 2 ^ 16 * 2 ^ 8 + v.toNat % 2 ^ 8 ∧
    (((m.write a .word v).write (a + 2) .half b).read a .word).toNat =
      v.toNat / 2 ^ 16 * 2 ^ 16 + b.toNat % 2 ^ 16) ∧
  ∀ (m : Memory) (a b q : Word) (w : Width), m.wf = true → w ≠ .word →
    (∀ j, j < w.bytes → q ≠ a + BitVec.ofNat 32 j) →
    (m.write a w b).byteAt q.toNat = m.byteAt q.toNat

/-- R44 and R46, the default admission of the spec's decision D8: a word needs the low two bits of
its address clear, a halfword the lowest bit, a byte nothing, and all of them lie below MEM_SIZE. -/
def Obligations.DefaultAdmissionIsAlignedAndInRange : Prop :=
  ∀ (n : Nat) (a : Word),
    ((Admission.sized n).admits a .word = true ↔
      a.getLsbD 0 = false ∧ a.getLsbD 1 = false ∧ a.toNat + 4 ≤ n) ∧
    ((Admission.sized n).admits a .half = true ↔ a.getLsbD 0 = false ∧ a.toNat + 2 ≤ n) ∧
    ((Admission.sized n).admits a .byte = true ↔ a.toNat < n)

/-- R52 and R186: a step that executes an admitted sw, sh or sb, in a delay slot or not, is followed
by a fetch, at the next instruction's address `next`, of a word whose bytes are the bytes stored
where the store covers them and the old bytes elsewhere. The store's byte order is R41 (D7 for
halfwords). The premises on `next` are those of an admitted fetch. -/
def Obligations.TheNextFetchSeesAStore : Prop :=
  ∀ (s : State) (i : Instr) (rt rs : Reg) (imm : Imm16) (w : Width) (ea next : Word),
    s.fetchable → s.mem.wf = true → decode s.wordAtPc = .ok i →
    ((w = .word ∧ i = .sw rt rs imm) ∨ (w = .half ∧ i = .sh rt rs imm) ∨
      (w = .byte ∧ i = .sb rt rs imm)) →
    ea = effAddr ((advance s).reg rs) imm → s.admission.admits ea w = true →
    next = (if s.pendValid then s.pendTarget else s.pc + 4) →
    Aligned4 next → s.admission.admits next .word = true →
    ∃ t f, step s = .next t ∧ t.fetchable ∧ t.pc = next ∧ fetch t = .word f ∧
      (∀ k j, k < 4 → j < w.bytes → next + BitVec.ofNat 32 k = ea + BitVec.ofNat 32 j →
        f.toNat / 2 ^ (8 * (3 - k)) % 2 ^ 8 =
          ((advance s).reg rt).toNat / 2 ^ (8 * (w.bytes - 1 - j)) % 2 ^ 8) ∧
      (∀ k, k < 4 → (∀ j, j < w.bytes → next + BitVec.ofNat 32 k ≠ ea + BitVec.ofNat 32 j) →
        f.toNat / 2 ^ (8 * (3 - k)) % 2 ^ 8 = (s.byteAt (next + BitVec.ofNat 32 k)).toNat) ∧
      (w = .word → ea = next → f = (advance s).reg rt)

/-! ### Control transfer and the sequencer -/

/-- R146: with no redirect pending, jr requests a redirect to the value x[rs] holds, aligned or not,
and changes nothing else; rt, rd and shamt are ignored. -/
def Obligations.JrRequestsTheRegisterTarget : Prop :=
  ∀ (rs rt rd : Reg) (sh : BitVec 5) (s : State),
    decode (wordR rs rt rd sh 0x08#6) = .ok (.jr rs) ∧
    (s.pendValid = false →
      ∃ t, exec (.jr rs) s = .next t ∧ Redirects (s.reg rs) s t ∧ KeepsRegs s t)

/-- R147 and R148: with no redirect pending, beq requests a redirect to pc_inc + 4 * imm exactly on
equal registers and bne exactly on different ones, changing nothing else; not taken, the state is
the one before. -/
def Obligations.BeqAndBneRequestTheirTarget : Prop :=
  ∀ (rs rt : Reg) (imm : Imm16) (s : State) (target : Word),
    target = BitVec.ofInt 32 (s.pc.toNat + 4 * imm.toInt) →
    (decode (wordI 0x04#6 rs rt imm) = .ok (.beq rs rt imm) ∧
      (s.pendValid = false →
        (s.reg rs = s.reg rt →
          ∃ t, exec (.beq rs rt imm) s = .next t ∧ Redirects target s t ∧ KeepsRegs s t) ∧
        (s.reg rs ≠ s.reg rt → exec (.beq rs rt imm) s = .next s))) ∧
    (decode (wordI 0x05#6 rs rt imm) = .ok (.bne rs rt imm) ∧
      (s.pendValid = false →
        (s.reg rs ≠ s.reg rt →
          ∃ t, exec (.bne rs rt imm) s = .next t ∧ Redirects target s t ∧ KeepsRegs s t) ∧
        (s.reg rs = s.reg rt → exec (.bne rs rt imm) s = .next s)))

/-- R149 and R150: with no redirect pending, blez requests its target exactly when x[rs], read
signed, is at most 0, and bgtz exactly when it is above 0; not taken, the state is the one before;
rt is ignored. -/
def Obligations.BlezAndBgtzRequestTheirTarget : Prop :=
  ∀ (rs rt : Reg) (imm : Imm16) (s : State) (target : Word),
    target = BitVec.ofInt 32 (s.pc.toNat + 4 * imm.toInt) →
    (decode (wordI 0x06#6 rs rt imm) = .ok (.blez rs imm) ∧
      (s.pendValid = false →
        ((s.reg rs).toInt ≤ 0 →
          ∃ t, exec (.blez rs imm) s = .next t ∧ Redirects target s t ∧ KeepsRegs s t) ∧
        (0 < (s.reg rs).toInt → exec (.blez rs imm) s = .next s))) ∧
    (decode (wordI 0x07#6 rs rt imm) = .ok (.bgtz rs imm) ∧
      (s.pendValid = false →
        (0 < (s.reg rs).toInt →
          ∃ t, exec (.bgtz rs imm) s = .next t ∧ Redirects target s t ∧ KeepsRegs s t) ∧
        ((s.reg rs).toInt ≤ 0 → exec (.bgtz rs imm) s = .next s)))

/-- R151 and R152; the region of the target is the spec's decision D15 and the link value D16, so
the basis is derived. With no redirect pending, j and jal request the target in the 256 MiB region
of pc_inc; jal also writes pc_inc to x[31]; nothing else changes. -/
def Obligations.JAndJalRequestTheirTarget : Prop :=
  ∀ (target : Target26) (s : State) (dest : Word),
    dest = BitVec.ofNat 32 (s.pc.toNat / 2 ^ 28 * 2 ^ 28 + 4 * target.toNat) →
    (decode (wordJ 0x02#6 target) = .ok (.j target) ∧
      (s.pendValid = false →
        ∃ t, exec (.j target) s = .next t ∧ Redirects dest s t ∧ KeepsRegs s t)) ∧
    (decode (wordJ 0x03#6 target) = .ok (.jal target) ∧
      (s.pendValid = false →
        ∃ t, exec (.jal target) s = .next t ∧ Redirects dest s t ∧ t.reg 31 = s.pc ∧
          KeepsRegsBut 31 s t))

/-- R141: no instruction changes the PC while it executes, and one that changes the pending redirect
is a jr, a taken beq, bne, blez or bgtz, a j or a jal, with none pending before. That none was
pending rests on the refusal of R143 (the spec's decision D11, log entry 6), and that `exec` itself
records the request is the model's (log entry 7), so the basis is derived. -/
def Obligations.OnlyTakenTransfersRequestARedirect : Prop :=
  ∀ (i : Instr) (s t : State), exec i s = .next t →
    t.pc = s.pc ∧
    ((t.pendValid = s.pendValid ∧ t.pendTarget = s.pendTarget) ∨
      (s.pendValid = false ∧ t.pendValid = true ∧
        ((∃ rs, i = .jr rs) ∨
          (∃ rs rt imm, i = .beq rs rt imm ∧ s.reg rs = s.reg rt) ∨
          (∃ rs rt imm, i = .bne rs rt imm ∧ s.reg rs ≠ s.reg rt) ∨
          (∃ rs imm, i = .blez rs imm ∧ (s.reg rs).toInt ≤ 0) ∨
          (∃ rs imm, i = .bgtz rs imm ∧ 0 < (s.reg rs).toInt) ∨
          (∃ target, i = .j target) ∨ (∃ target, i = .jal target))))

/-- R143, the spec's refusal of decision D11 (log entry 6): a CTI with a redirect pending is
refused, by its meaning and by the step that fetches it. -/
def Obligations.ATransferInADelaySlotIsRefused : Prop :=
  (∀ (i : Instr) (s : State), i.isCti = true → s.pendValid = true →
    exec i s = .refused .ctiInDelaySlot) ∧
  (∀ (i : Instr) (s : State), s.fetchable → decode s.wordAtPc = .ok i → i.isCti = true →
    s.pendValid = true → step s = .refused .ctiInDelaySlot)

/-- R142: what a step does after the instruction has executed, giving `u`. In a delay slot the
pending target becomes the PC and the sequencer is Idle, unless the step ended the run, and then the
redirect is never applied; otherwise the PC is pc_inc and a request stays pending. The instruction's
own effects on registers and memory stand in each case. -/
def Obligations.TheSequencerAppliesThePendingRedirect : Prop :=
  ∀ (s t : State) (i : Instr), s.fetchable → decode s.wordAtPc = .ok i → step s = .next t →
    ∃ u, exec i (advance s) = .next u ∧ t.regs = u.regs ∧ t.mem = u.mem ∧ t.term = u.term ∧
      (s.pendValid = true → u.term = .running →
        t.pc = s.pendTarget ∧ t.pendValid = false) ∧
      (s.pendValid = true → u.term ≠ .running →
        t.pc = s.pc + 4 ∧ t.pendValid = true ∧ t.pendTarget = s.pendTarget) ∧
      (s.pendValid = false →
        t.pc = s.pc + 4 ∧ t.pendValid = u.pendValid ∧ t.pendTarget = u.pendTarget)

/-- R183: after a CTI, taken or not, the next step runs the instruction that follows it, and the
step after that starts at the target if the CTI was taken. -/
def Obligations.ExactlyOneDelaySlotFollowsATransfer : Prop :=
  ∀ (s t : State) (i : Instr), s.fetchable → decode s.wordAtPc = .ok i → i.isCti = true →
    step s = .next t →
    t.term = .running ∧ t.pc = s.pc + 4 ∧
      ∀ u, step t = .next u → u.term = .running →
        (t.pendValid = true → u.pc = t.pendTarget ∧ u.pendValid = false) ∧
        (t.pendValid = false → u.pc = s.pc + 8)

/-- R145: from an aligned PC and an aligned pending target, every step that does not execute a jr
leaves both aligned. -/
def Obligations.OnlyJrBreaksAlignment : Prop :=
  ∀ s t : State, s.flowAligned → step s = .next t →
    (∀ rs, decode s.wordAtPc ≠ .ok (.jr rs)) → t.flowAligned

/-! ### The step -/

/-- R100 and R102: when the four bytes at the PC decode to `i`, a step is `exec i` on the state with
the PC advanced by 4 and x[0] zeroed, followed by the sequencer; no instruction faults, and a
refusal of the instruction is the step's. -/
def Obligations.AStepRunsTheDecodedInstruction : Prop :=
  ∀ (s a : State) (i : Instr),
    s.term = .running → Aligned4 s.pc → s.admission.admits s.pc .word = true →
    decodeBytes [s.byteAt s.pc, s.byteAt (s.pc + 1), s.byteAt (s.pc + 2), s.byteAt (s.pc + 3)] =
      .ok (i, []) →
    a = { s with regs := s.regs.set 0 0, pc := s.pc + 4 } →
    (∀ u, exec i a = .next u → step s = .next
      (if s.pendValid = true ∧ u.term = .running
        then { u with pc := u.pendTarget, pendValid := false } else u)) ∧
    (∀ r, exec i a ≠ .fault r) ∧
    (∀ r, exec i a = .refused r → step s = .refused r)

/-- R101, with the spec's decisions D9 and D10, so the basis is derived: a fetch from a misaligned
PC is refused, and one that is not admitted ends the run with MemoryAccessFault, with the PC, x[0]
and everything else as they were. -/
def Obligations.AFailedFetchIsRefusedOrEndsTheRun : Prop :=
  ∀ s : State, s.term = .running →
    (¬ Aligned4 s.pc → step s = .refused .misalignedFetch) ∧
    (Aligned4 s.pc → s.admission.admits s.pc .word = false →
      ∃ t, step s = .next t ∧ OnlyError (.memoryAccessFault s.pc .word) s t)

/-- R103: HALT ends the run cleanly and changes nothing else, and the step that fetches the sentinel
advances the PC, zeroes x[0], and never applies a pending redirect. -/
def Obligations.TheSentinelHaltsCleanly : Prop :=
  (∀ s : State, ∃ t, exec .halt s = .next t ∧ t.term = .haltedClean ∧ t.cause = s.cause ∧
    t.diags = s.diags ∧ KeepsRegs s t ∧ KeepsMem s t ∧ KeepsFlow s t ∧
    t.admission = s.admission) ∧
  (∀ s : State, s.fetchable → s.wordAtPc = 0xFEEDFEED →
    ∃ t, step s = .next t ∧ t.term = .haltedClean ∧ t.pc = s.pc + 4 ∧ t.reg 0 = 0 ∧
      KeepsRegsBut 0 s t ∧ KeepsMem s t ∧ t.pendValid = s.pendValid ∧
      t.pendTarget = s.pendTarget ∧ t.cause = s.cause ∧ t.diags = s.diags)

/-- R161: a step that fetches an illegal word ends the run with IllegalInstruction; it has advanced
the PC and zeroed x[0], and every other register, memory and the pending redirect are intact. -/
def Obligations.AnIllegalWordEndsTheRun : Prop :=
  ∀ (s : State) (r : Reject), s.fetchable → decode s.wordAtPc = .error r →
    ∃ t, step s = .next t ∧ Raised (.illegalInstruction s.wordAtPc) s t ∧ t.pc = s.pc + 4 ∧
      t.reg 0 = 0 ∧ KeepsRegsBut 0 s t ∧ KeepsMem s t ∧ t.pendValid = s.pendValid ∧
      t.pendTarget = s.pendTarget ∧ t.admission = s.admission

/-- R26: a launch starts Running, a step is answered only while Running, and no run goes on from a
halted state. -/
def Obligations.NoStepIsTakenOnceEnded : Prop :=
  State.reset.term = .running ∧
  (∀ s t : State, step s = .next t → s.term = .running) ∧
  (∀ (k : Nat) (s t : State), s.ended → Sys2Proof.core.run (k + 1) s ≠ .next t)

/-- R165 and R167 (the diagnostic of a memory fault is the spec's decision D18): a step that enters
HaltedError emits exactly one event and records its cause; every other step emits none and leaves
the cause. -/
def Obligations.AnErrorHaltEmitsExactlyOneDiagnostic : Prop :=
  ∀ s t : State, step s = .next t →
    (t.term = .haltedError → ∃ d, Raised d s t) ∧
    (t.term ≠ .haltedError → t.cause = s.cause ∧ t.diags = s.diags)

/-- R160, its "raised by", "when" and "info" columns (the codes are the spec's decision D17, the
overflow rule of sub D13, the event of a memory fault D18). An error has a cause. IllegalInstruction
comes of an illegal word only. ArithmeticOverflow comes of an add, sub or addi only, whose exact
signed result is outside [-2^31, 2^31 - 1]. MemoryAccessFault comes only of a fetch that is not
admitted, or of a load or store whose access at its effective address and width is not admitted.
Each is recorded with its information. -/
def Obligations.EachCauseHasItsOwnConditions : Prop :=
  ∀ s t : State, step s = .next t → t.term = .haltedError →
    (t.cause ≠ .none) ∧
    (t.cause = .illegalInstruction →
      (∃ r, decode s.wordAtPc = .error r) ∧ Raised (.illegalInstruction s.wordAtPc) s t) ∧
    (t.cause = .arithmeticOverflow →
      ∃ (i : Instr) (rd rs rt : Reg) (imm : Imm16) (a b : Word) (x : Int),
        decode s.wordAtPc = .ok i ∧ a = (advance s).reg rs ∧
        ((i = .add rd rs rt ∧ b = (advance s).reg rt ∧ x = a.toInt + b.toInt) ∨
          (i = .sub rd rs rt ∧ b = (advance s).reg rt ∧ x = a.toInt - b.toInt) ∨
          (i = .addi rd rs imm ∧ b = sext32 imm ∧ x = a.toInt + imm.toInt)) ∧
        (x < -2 ^ 31 ∨ 2 ^ 31 ≤ x) ∧ Raised (.arithmeticOverflow a b) s t) ∧
    (t.cause = .memoryAccessFault →
      (Aligned4 s.pc ∧ s.admission.admits s.pc .word = false ∧
        Raised (.memoryAccessFault s.pc .word) s t) ∨
      ∃ (i : Instr) (rt rs : Reg) (imm : Imm16) (w : Width) (ea : Word),
        decode s.wordAtPc = .ok i ∧ ea = effAddr ((advance s).reg rs) imm ∧
        ((w = .word ∧ (i = .lw rt rs imm ∨ i = .sw rt rs imm)) ∨
          (w = .half ∧ (i = .lhu rt rs imm ∨ i = .sh rt rs imm)) ∨
          (w = .byte ∧ (i = .lbu rt rs imm ∨ i = .sb rt rs imm))) ∧
        s.admission.admits ea w = false ∧ Raised (.memoryAccessFault ea w) s t)

/-- R164: the exit code is 0 exactly for HaltedClean and 127 exactly for HaltedError, whatever the
cause; while Running there is none (R109's "valid when", the spec's decision D1, so the basis is
derived). -/
def Obligations.ExitCodesFollowTheTerminationState : Prop :=
  ∀ s : State,
    (s.exitCode = some 0 ↔ s.term = .haltedClean) ∧
    (s.exitCode = some 127 ↔ s.term = .haltedError) ∧
    (s.exitCode = none ↔ s.term = .running)

/-! ### Whole-machine rules -/

/-- R32, the "writes" column, for every instruction: exec changes no register outside the table,
memory only by a store, the PC never, the pending redirect only by a CTI, and the launch parameters
never. -/
def Obligations.InstructionsWriteOnlyTheirTabledState : Prop :=
  ∀ (i : Instr) (s t : State), exec i s = .next t →
    (∀ r, r ∉ i.writes → t.reg r = s.reg r) ∧
    (i.isStore = false → KeepsMem s t) ∧
    t.pc = s.pc ∧
    (i.isCti = false → t.pendValid = s.pendValid ∧ t.pendTarget = s.pendTarget) ∧
    t.admission = s.admission

/-- R32, the "reads" column, for every instruction: on two states that differ at most in registers
outside the table, exec answers alike, and the two next states agree on everything but registers and
on every register the two states agreed on or the table says is written and was written in one. -/
def Obligations.InstructionsReadOnlyTheirTabledRegisters : Prop :=
  ∀ (i : Instr) (s : State) (regs' : Vector Word 32),
    (∀ r, r ∈ i.reads → ({ s with regs := regs' } : State).reg r = s.reg r) →
    (∀ r, exec i s = .refused r → exec i { s with regs := regs' } = .refused r) ∧
    (∀ t, exec i s = .next t → ∃ t', exec i { s with regs := regs' } = .next t' ∧
      t' = { t with regs := t'.regs } ∧
      ∀ r, t'.reg r = t.reg r ∨
        (t.reg r = s.reg r ∧ t'.reg r = ({ s with regs := regs' } : State).reg r))

/-- The invariant `State.Inv`: memory keeps its canonical form (log entry 13), and the cause and the
diagnostics agree with the termination state (R27, R165). Every step from a state with it gives a
state with it. -/
def Obligations.StepKeepsTheInvariant : Prop :=
  ∀ s t : State, s.Inv → step s = .next t → t.Inv

/-- `State.Inv` holds at reset and at every launch whose INIT_MEM is canonical and whose image fits
the address space. -/
def Obligations.ResetAndLaunchMeetTheInvariant : Prop :=
  State.reset.Inv ∧
  ∀ (c : Admission) (rest : Memory) (image : List Byte),
    rest.wf = true → image.length ≤ 2 ^ 32 → (State.launch c rest image).Inv

/-- R24: while no redirect is pending, the value of pend_target makes no difference to any run. The
same number of steps ends in the same refusal, the same fault, or in two states that agree on
everything but pend_target, and on that too if a redirect is pending in them. The last line says so
of the observation (R108, see TheObservationIsTheFinalState) and the exit code. -/
def Obligations.AnIdlePendTargetIsUnobservable : Prop :=
  ∀ (k : Nat) (s : State) (v : Word), s.pendValid = false →
    (∀ t, Sys2Proof.core.run k s = .next t →
      ∃ t', Sys2Proof.core.run k { s with pendTarget := v } = .next t' ∧
        t' = { t with pendTarget := t'.pendTarget } ∧
        (t.pendValid = true → t'.pendTarget = t.pendTarget) ∧
        t'.observe = t.observe ∧ t'.exitCode = t.exitCode) ∧
    (∀ r, Sys2Proof.core.run k s = .refused r →
      Sys2Proof.core.run k { s with pendTarget := v } = .refused r) ∧
    (∀ r, Sys2Proof.core.run k s = .fault r →
      Sys2Proof.core.run k { s with pendTarget := v } = .fault r)

/-- R22: a step that gets past its fetch does not depend on what x[0] held, and x[0] is 0 at a clean
halt. -/
def Obligations.AStaleRegister0IsNeverRead : Prop :=
  (∀ (s : State) (v : Word), s.fetchable → step (s.setReg 0 v) = step s) ∧
  (∀ s t : State, step s = .next t → t.term = .haltedClean → t.reg 0 = 0)

/-! ### Reset and launch -/

/-- R33 and R180; the entry point is the spec's decision D4 and the Idle sequencer D5, so the basis
is derived: after any launch every register is 0, the PC is 0, no redirect is pending, the state is
Running, there is no cause and no diagnostic, and the memory's contract is the launch's. Nothing is
said of pend_target. -/
def Obligations.ALaunchStartsInTheResetState : Prop :=
  ∀ (c : Admission) (rest : Memory) (image : List Byte) (s : State),
    s = State.launch c rest image →
    (∀ r, s.reg r = 0) ∧ s.pc = 0 ∧ s.sequencer = .idle ∧ s.term = .running ∧ s.cause = .none ∧
      s.diags = [] ∧ s.admission = c

/-- R181 with the spec's decision D22: after a launch, byte k of the image is at address k, and
every address beyond the image holds what INIT_MEM gives there. -/
def Obligations.ALaunchLoadsTheImageAtZero : Prop :=
  ∀ (c : Admission) (rest : Memory) (image : List Byte),
    rest.wf = true → image.length ≤ 2 ^ 32 →
    ∀ a : Word,
      (∀ h : a.toNat < image.length,
        (State.launch c rest image).byteAt a = image[a.toNat]'h) ∧
      (image.length ≤ a.toNat → (State.launch c rest image).byteAt a = rest.byteAt a.toNat)

/-! ### Decoding and encoding -/

/-- R61 and R65: decoding the encoding of a well-formed instruction gives it back, with every
operand at every value. -/
def Obligations.DecodeOfEncodeIsTheInstruction : Prop :=
  ∀ i : Instr, i.wf = true → decode (encode i) = .ok i

/-- R63 with the spec's decision D14: a word and the instruction it decodes to agree on every bit
that selects it or that its rule reads, and on no other: encoding it again gives the word with the
ignored fields cleared. Decoded instructions are well formed. -/
def Obligations.EncodeOfDecodeKeepsTheUsedBits : Prop :=
  ∀ (w : Word) (i : Instr), decode w = .ok i → i.wf = true ∧ encode i = w &&& i.row.used

/-- R64 and R67 over the rows of the opcode table: a word other than the sentinel decodes to an
instruction exactly when it hits a row, the row it hits is that instruction's, and no word hits two
rows. -/
def Obligations.DecodingFollowsTheOpcodeTable : Prop :=
  ∀ w : Word, w ≠ 0xFEEDFEED →
    (∀ i, decode w = .ok i → i.row ∈ opcodeTable ∧ i.row.hit w = true) ∧
    (∀ r, decode w = .error r → ∀ row ∈ opcodeTable, row.hit w = false) ∧
    (∀ row ∈ opcodeTable, ∀ row' ∈ opcodeTable, row.hit w = true → row'.hit w = true → row = row')

/-- R67: the illegal words are exactly those whose op is one of the 44 listed, or whose op is 0 and
whose funct is one of the 52 listed, the sentinel apart. -/
def Obligations.TheIllegalWordsAreThoseListed : Prop :=
  ∀ (w : Word) (op funct : Nat), op = w.toNat / 2 ^ 26 → funct = w.toNat % 2 ^ 6 →
    ((∃ r, decode w = .error r) ↔
      w ≠ 0xFEEDFEED ∧
      ((op = 0x01 ∨ op = 0x0E ∨ (0x10 ≤ op ∧ op ≤ 0x22) ∨ op = 0x26 ∨ op = 0x27 ∨ op = 0x2A ∨
          0x2C ≤ op) ∨
        (op = 0 ∧
          (funct = 0x01 ∨ (0x03 ≤ funct ∧ funct ≤ 0x07) ∨ (0x09 ≤ funct ∧ funct ≤ 0x1F) ∨
            funct = 0x26 ∨ funct = 0x28 ∨ funct = 0x29 ∨ 0x2C ≤ funct))))

/-- Words that 95_test_vectors.md writes out decode as it says, one of each family. -/
def Obligations.SampleWordsDecode : Prop :=
  decode 0x00221820 = .ok (.add 3 1 2) ∧ decode 0x00A14100 = .ok (.sll 8 1 4) ∧
  decode 0x2021FFFF = .ok (.addi 1 1 0xFFFF) ∧ decode 0x3C220005 = .ok (.lui 2 5) ∧
  decode 0x8C040100 = .ok (.lw 4 0 0x100) ∧ decode 0xA4220004 = .ok (.sh 2 1 4) ∧
  decode 0x1420FFFD = .ok (.bne 1 0 0xFFFD) ∧ decode 0x03E00008 = .ok (.jr 31) ∧
  decode 0x0C000004 = .ok (.jal 4) ∧ decode 0xFEEDFEED = .ok .halt

/-! ### Outputs -/

/-- R108 and R166: what is observed of a run at its end is the termination state, the 32 registers,
the memory and the cause, and nothing else; before the end nothing is handed over. -/
def Obligations.TheObservationIsTheFinalState : Prop :=
  ∀ s : State,
    (s.ended → ∃ o, s.observe = some o ∧ o.term = s.term ∧ (∀ r : Reg, o.regs[r] = s.reg r) ∧
      (∀ a : Word, o.mem.byteAt a.toNat = s.byteAt a) ∧ o.cause = s.cause) ∧
    (∀ s' : State, s.ended → (s'.observe = s.observe ↔
      s'.term = s.term ∧ s'.regs = s.regs ∧ s'.mem = s.mem ∧ s'.cause = s.cause)) ∧
    (s.term = .running → s.observe = none)
end

