-- ==== Sys2Proof/Laws/Memory.lean ====
section
/-! SUPPORT. The laws of the memory: reading back a write, leaving every other byte alone, and
keeping the canonical form (R42, R43, R45). -/

namespace Sys2Proof.Machine

/-- An address below every entry of a canonical list reads as unlisted. -/
theorem byteAt_below {m : Memory} {lo a : Nat} (h : m.wfFrom lo = true) (ha : a < lo) :
    m.byteAt a = Memory.unlisted := by
  induction m generalizing lo with
  | nil => rfl
  | cons c rest ih =>
    obtain ⟨k, b⟩ := c
    simp only [Memory.wfFrom, Bool.and_eq_true, decide_eq_true_eq] at h
    have hk : k ≠ a := by omega
    simp only [Memory.byteAt, if_neg hk]
    exact ih h.2 (by omega)

/-- A canonical list stays canonical from a lower bound on. -/
theorem wfFrom_mono {m : Memory} {lo hi : Nat} (h : m.wfFrom hi = true) (hle : lo ≤ hi) :
    m.wfFrom lo = true := by
  cases m with
  | nil => rfl
  | cons c rest =>
    obtain ⟨k, b⟩ := c
    simp only [Memory.wfFrom, Bool.and_eq_true, decide_eq_true_eq] at h ⊢
    exact ⟨⟨⟨by omega, h.1.1.2⟩, h.1.2⟩, h.2⟩

/-- Writing one byte keeps the canonical form. -/
theorem setByte_wfFrom {m : Memory} {lo a : Nat} {b : Byte} (h : m.wfFrom lo = true) (hlo : lo ≤ a)
    (ha : a < 2 ^ 32) : (m.setByte a b).wfFrom lo = true := by
  induction m generalizing lo with
  | nil =>
    by_cases hb : b = Memory.unlisted
    · simp [Memory.setByte, hb, Memory.wfFrom]
    · simp only [Memory.setByte, if_neg hb, Memory.wfFrom, Bool.and_eq_true, decide_eq_true_eq]
      exact ⟨⟨⟨hlo, ha⟩, by simpa using hb⟩, trivial⟩
  | cons c rest ih =>
    obtain ⟨k, d⟩ := c
    have h0 := h
    simp only [Memory.wfFrom, Bool.and_eq_true, decide_eq_true_eq] at h
    by_cases hak : a < k
    · by_cases hb : b = Memory.unlisted
      · simpa [Memory.setByte, hak, hb] using h0
      · simp only [Memory.setByte, if_pos hak, if_neg hb, Memory.wfFrom, Bool.and_eq_true,
          decide_eq_true_eq]
        exact ⟨⟨⟨hlo, ha⟩, by simpa using hb⟩, ⟨⟨by omega, h.1.1.2⟩, h.1.2⟩, h.2⟩
    · by_cases hk : a = k
      · subst hk
        by_cases hb : b = Memory.unlisted
        · simpa [Memory.setByte, hb] using wfFrom_mono h.2 (by omega)
        · simp only [Memory.setByte, lt_irrefl, if_false, if_true, if_neg hb, Memory.wfFrom,
            Bool.and_eq_true, decide_eq_true_eq]
          exact ⟨⟨⟨hlo, ha⟩, by simpa using hb⟩, h.2⟩
      · simp only [Memory.setByte, if_neg hak, if_neg hk, Memory.wfFrom, Bool.and_eq_true,
          decide_eq_true_eq]
        exact ⟨h.1, ih h.2 (by omega)⟩

/-- What every address reads after one byte of a canonical memory is written. -/
theorem byteAt_setByte_from {m : Memory} {lo : Nat} (h : m.wfFrom lo = true) (a q : Nat) (b : Byte) :
    (m.setByte a b).byteAt q = if q = a then b else m.byteAt q := by
  induction m generalizing lo with
  | nil =>
    by_cases hb : b = Memory.unlisted
    · simp [Memory.setByte, hb, Memory.byteAt]
    · simp [Memory.setByte, hb, Memory.byteAt, eq_comm]
  | cons c rest ih =>
    obtain ⟨k, d⟩ := c
    have h0 := h
    simp only [Memory.wfFrom, Bool.and_eq_true, decide_eq_true_eq] at h
    by_cases hak : a < k
    · by_cases hb : b = Memory.unlisted
      · simp only [Memory.setByte, if_pos hak, if_pos hb]
        by_cases hq : q = a
        · subst hq
          simp only [if_true, Memory.byteAt, if_neg (show ¬k = q by omega)]
          rw [byteAt_below h.2 (by omega), hb]
        · simp [hq]
      · simp only [Memory.setByte, if_pos hak, if_neg hb]
        simp only [Memory.byteAt, eq_comm (a := a)]
    · by_cases hk : a = k
      · subst hk
        by_cases hb : b = Memory.unlisted
        · simp only [Memory.setByte, lt_irrefl, if_false, if_true, if_pos hb]
          by_cases hq : q = a
          · subst hq
            simp only [if_true]
            rw [byteAt_below h.2 (by omega), hb]
          · simp [Memory.byteAt, hq, eq_comm (a := a)]
        · simp only [Memory.setByte, lt_irrefl, if_false, if_true, if_neg hb, Memory.byteAt]
          by_cases hq : q = a <;> simp [hq, eq_comm (a := a)]
      · simp only [Memory.setByte, if_neg hak, if_neg hk, Memory.byteAt]
        rw [ih h.2]
        by_cases hq : q = a
        · subst hq
          simp [show ¬k = q by omega]
        · simp [hq]

theorem byteAt_setByte {m : Memory} (h : m.wf = true) (a q : Nat) (b : Byte) :
    (m.setByte a b).byteAt q = if q = a then b else m.byteAt q :=
  byteAt_setByte_from h a q b

theorem setByte_wf {m : Memory} (h : m.wf = true) {a : Nat} (ha : a < 2 ^ 32) (b : Byte) :
    (m.setByte a b).wf = true :=
  setByte_wfFrom h (Nat.zero_le _) ha

/-- Every write keeps the canonical form. -/
theorem write_wf {m : Memory} (h : m.wf = true) (a : Word) (w : Width) (v : Word) :
    (m.write a w v).wf = true := by
  cases w with
  | byte => exact setByte_wf h a.isLt _
  | half => exact setByte_wf (setByte_wf h a.isLt _) (a + 1).isLt _
  | word =>
    exact setByte_wf (setByte_wf (setByte_wf (setByte_wf h a.isLt _) (a + 1).isLt _)
      (a + 2).isLt _) (a + 3).isLt _

/-- Loading an image that fits the address space keeps the canonical form. -/
theorem load_wf {m : Memory} (h : m.wf = true) {at0 : Nat} {l : List Byte}
    (hl : at0 + l.length ≤ 2 ^ 32) : (m.load at0 l).wf = true := by
  induction l generalizing m at0 with
  | nil => exact h
  | cons b rest ih =>
    simp only [List.length_cons] at hl
    exact ih (setByte_wf h (by omega) b) (by omega)

theorem toNat_inj {a b : Word} : a.toNat = b.toNat ↔ a = b := BitVec.toNat_inj

/-- What a byte reads after a byte write. -/
theorem byteAt_write_byte {m : Memory} (h : m.wf = true) (a v q : Word) :
    (m.write a .byte v).byteAt q.toNat =
      if q = a then v.extractLsb' 0 8 else m.byteAt q.toNat := by
  simp only [Memory.write, byteAt_setByte h, toNat_inj]

/-- What a byte reads after a halfword write. -/
theorem byteAt_write_half {m : Memory} (h : m.wf = true) (a v q : Word) :
    (m.write a .half v).byteAt q.toNat =
      if q = a + 1 then v.extractLsb' 0 8
      else if q = a then v.extractLsb' 8 8 else m.byteAt q.toNat := by
  simp only [Memory.write, byteAt_setByte (setByte_wf h a.isLt _), byteAt_setByte h, toNat_inj]

/-- What a byte reads after a word write. -/
theorem byteAt_write_word {m : Memory} (h : m.wf = true) (a v q : Word) :
    (m.write a .word v).byteAt q.toNat =
      if q = a + 3 then v.extractLsb' 0 8
      else if q = a + 2 then v.extractLsb' 8 8
      else if q = a + 1 then v.extractLsb' 16 8
      else if q = a then v.extractLsb' 24 8 else m.byteAt q.toNat := by
  have h1 := setByte_wf h a.isLt (v.extractLsb' 24 8)
  have h2 := setByte_wf h1 (a + 1).isLt (v.extractLsb' 16 8)
  have h3 := setByte_wf h2 (a + 2).isLt (v.extractLsb' 8 8)
  simp only [Memory.write, byteAt_setByte h3, byteAt_setByte h2, byteAt_setByte h1,
    byteAt_setByte h, toNat_inj]

/-- Byte `j` of a write of any width, most significant first (R43). -/
theorem byteAt_write_inside {m : Memory} (h : m.wf = true) (a v : Word) (w : Width) {j : Nat}
    (hj : j < w.bytes) :
    (m.write a w v).byteAt (a + BitVec.ofNat 32 j).toNat =
      v.extractLsb' (8 * (w.bytes - 1 - j)) 8 := by
  cases w with
  | byte =>
    obtain rfl : j = 0 := by simpa [Width.bytes] using hj
    simp [byteAt_write_byte h, Width.bytes]
  | half =>
    have : j = 0 ∨ j = 1 := by simp only [Width.bytes] at hj; omega
    rcases this with rfl | rfl <;> rw [byteAt_write_half h] <;> simp [Width.bytes]
  | word =>
    have : j = 0 ∨ j = 1 ∨ j = 2 ∨ j = 3 := by simp only [Width.bytes] at hj; omega
    rcases this with rfl | rfl | rfl | rfl <;> rw [byteAt_write_word h] <;> simp [Width.bytes]

/-- A write of any width leaves every byte outside its own as it was. -/
theorem byteAt_write_outside {m : Memory} (h : m.wf = true) {a q : Word} (v : Word) (w : Width)
    (hq : ∀ j, j < w.bytes → q ≠ a + BitVec.ofNat 32 j) :
    (m.write a w v).byteAt q.toNat = m.byteAt q.toNat := by
  have h0 : q ≠ a := by simpa using hq 0 (by cases w <;> decide)
  cases w with
  | byte => rw [byteAt_write_byte h, if_neg h0]
  | half =>
    have h1 : q ≠ a + 1 := hq 1 (by decide)
    rw [byteAt_write_half h, if_neg h1, if_neg h0]
  | word =>
    have h1 : q ≠ a + 1 := hq 1 (by decide)
    have h2 : q ≠ a + 2 := hq 2 (by decide)
    have h3 : q ≠ a + 3 := hq 3 (by decide)
    rw [byteAt_write_word h, if_neg h3, if_neg h2, if_neg h1, if_neg h0]

end Sys2Proof.Machine
end

