-- ==== Sys2Proof/Laws/State.lean ====
section
/-! SUPPORT. One lemma per field per state update, each true by rfl, so that later proofs unfold no
record update; and what a register reads after each update. -/

namespace Sys2Proof.Machine

/-! ### setReg -/

@[simp] theorem setReg_regs (s : State) (r : Reg) (v : Word) : (s.setReg r v).regs = s.regs.set r v := rfl
@[simp] theorem setReg_pc (s : State) (r : Reg) (v : Word) : (s.setReg r v).pc = s.pc := rfl
@[simp] theorem setReg_pendValid (s : State) (r : Reg) (v : Word) : (s.setReg r v).pendValid = s.pendValid := rfl
@[simp] theorem setReg_pendTarget (s : State) (r : Reg) (v : Word) : (s.setReg r v).pendTarget = s.pendTarget := rfl
@[simp] theorem setReg_term (s : State) (r : Reg) (v : Word) : (s.setReg r v).term = s.term := rfl
@[simp] theorem setReg_cause (s : State) (r : Reg) (v : Word) : (s.setReg r v).cause = s.cause := rfl
@[simp] theorem setReg_mem (s : State) (r : Reg) (v : Word) : (s.setReg r v).mem = s.mem := rfl
@[simp] theorem setReg_diags (s : State) (r : Reg) (v : Word) : (s.setReg r v).diags = s.diags := rfl
@[simp] theorem setReg_admission (s : State) (r : Reg) (v : Word) : (s.setReg r v).admission = s.admission := rfl

/-! ### advance -/

@[simp] theorem advance_regs (s : State) : (advance s).regs = s.regs.set 0 0 := rfl
@[simp] theorem advance_pc (s : State) : (advance s).pc = s.pc + 4 := rfl
@[simp] theorem advance_pendValid (s : State) : (advance s).pendValid = s.pendValid := rfl
@[simp] theorem advance_pendTarget (s : State) : (advance s).pendTarget = s.pendTarget := rfl
@[simp] theorem advance_term (s : State) : (advance s).term = s.term := rfl
@[simp] theorem advance_cause (s : State) : (advance s).cause = s.cause := rfl
@[simp] theorem advance_mem (s : State) : (advance s).mem = s.mem := rfl
@[simp] theorem advance_diags (s : State) : (advance s).diags = s.diags := rfl
@[simp] theorem advance_admission (s : State) : (advance s).admission = s.admission := rfl

/-! ### raise -/

@[simp] theorem raise_regs (d : Diag) (s : State) : (raise d s).regs = s.regs := rfl
@[simp] theorem raise_pc (d : Diag) (s : State) : (raise d s).pc = s.pc := rfl
@[simp] theorem raise_pendValid (d : Diag) (s : State) : (raise d s).pendValid = s.pendValid := rfl
@[simp] theorem raise_pendTarget (d : Diag) (s : State) : (raise d s).pendTarget = s.pendTarget := rfl
@[simp] theorem raise_term (d : Diag) (s : State) : (raise d s).term = .haltedError := rfl
@[simp] theorem raise_cause (d : Diag) (s : State) : (raise d s).cause = d.cause := rfl
@[simp] theorem raise_mem (d : Diag) (s : State) : (raise d s).mem = s.mem := rfl
@[simp] theorem raise_diags (d : Diag) (s : State) : (raise d s).diags = s.diags ++ [d] := rfl
@[simp] theorem raise_admission (d : Diag) (s : State) : (raise d s).admission = s.admission := rfl

/-! ### haltClean -/

@[simp] theorem haltClean_regs (s : State) : (haltClean s).regs = s.regs := rfl
@[simp] theorem haltClean_pc (s : State) : (haltClean s).pc = s.pc := rfl
@[simp] theorem haltClean_pendValid (s : State) : (haltClean s).pendValid = s.pendValid := rfl
@[simp] theorem haltClean_pendTarget (s : State) : (haltClean s).pendTarget = s.pendTarget := rfl
@[simp] theorem haltClean_term (s : State) : (haltClean s).term = .haltedClean := rfl
@[simp] theorem haltClean_cause (s : State) : (haltClean s).cause = s.cause := rfl
@[simp] theorem haltClean_mem (s : State) : (haltClean s).mem = s.mem := rfl
@[simp] theorem haltClean_diags (s : State) : (haltClean s).diags = s.diags := rfl
@[simp] theorem haltClean_admission (s : State) : (haltClean s).admission = s.admission := rfl

/-! ### request -/

@[simp] theorem request_none (s : State) : request none s = s := rfl

@[simp] theorem request_some_regs (t : Word) (s : State) : (request (some t) s).regs = s.regs := rfl
@[simp] theorem request_some_pc (t : Word) (s : State) : (request (some t) s).pc = s.pc := rfl
@[simp] theorem request_some_pendValid (t : Word) (s : State) : (request (some t) s).pendValid = true := rfl
@[simp] theorem request_some_pendTarget (t : Word) (s : State) : (request (some t) s).pendTarget = t := rfl
@[simp] theorem request_some_term (t : Word) (s : State) : (request (some t) s).term = s.term := rfl
@[simp] theorem request_some_cause (t : Word) (s : State) : (request (some t) s).cause = s.cause := rfl
@[simp] theorem request_some_mem (t : Word) (s : State) : (request (some t) s).mem = s.mem := rfl
@[simp] theorem request_some_diags (t : Word) (s : State) : (request (some t) s).diags = s.diags := rfl
@[simp] theorem request_some_admission (t : Word) (s : State) : (request (some t) s).admission = s.admission := rfl

/-! ### launch and withFetchWord -/

@[simp] theorem launch_regs (c : Admission) (m : Memory) (l : List Byte) :
    (State.launch c m l).regs = State.reset.regs := rfl
@[simp] theorem launch_pc (c : Admission) (m : Memory) (l : List Byte) :
    (State.launch c m l).pc = State.reset.pc := rfl
@[simp] theorem launch_pendValid (c : Admission) (m : Memory) (l : List Byte) :
    (State.launch c m l).pendValid = State.reset.pendValid := rfl
@[simp] theorem launch_pendTarget (c : Admission) (m : Memory) (l : List Byte) :
    (State.launch c m l).pendTarget = State.reset.pendTarget := rfl
@[simp] theorem launch_term (c : Admission) (m : Memory) (l : List Byte) :
    (State.launch c m l).term = State.reset.term := rfl
@[simp] theorem launch_cause (c : Admission) (m : Memory) (l : List Byte) :
    (State.launch c m l).cause = State.reset.cause := rfl
@[simp] theorem launch_diags (c : Admission) (m : Memory) (l : List Byte) :
    (State.launch c m l).diags = State.reset.diags := rfl
@[simp] theorem launch_mem (c : Admission) (m : Memory) (l : List Byte) :
    (State.launch c m l).mem = m.load 0 l := rfl
@[simp] theorem launch_admission (c : Admission) (m : Memory) (l : List Byte) :
    (State.launch c m l).admission = c := rfl
@[simp] theorem withFetchWord_regs (s : State) (n w : Nat) :
    (s.withFetchWord n w).regs = s.regs := rfl
@[simp] theorem withFetchWord_pc (s : State) (n w : Nat) :
    (s.withFetchWord n w).pc = s.pc := rfl
@[simp] theorem withFetchWord_pendValid (s : State) (n w : Nat) :
    (s.withFetchWord n w).pendValid = s.pendValid := rfl
@[simp] theorem withFetchWord_pendTarget (s : State) (n w : Nat) :
    (s.withFetchWord n w).pendTarget = s.pendTarget := rfl
@[simp] theorem withFetchWord_term (s : State) (n w : Nat) :
    (s.withFetchWord n w).term = s.term := rfl
@[simp] theorem withFetchWord_cause (s : State) (n w : Nat) :
    (s.withFetchWord n w).cause = s.cause := rfl
@[simp] theorem withFetchWord_diags (s : State) (n w : Nat) :
    (s.withFetchWord n w).diags = s.diags := rfl
@[simp] theorem withFetchWord_admission (s : State) (n w : Nat) :
    (s.withFetchWord n w).admission = s.admission := rfl
@[simp] theorem withFetchWord_mem (s : State) (n w : Nat) :
    (s.withFetchWord n w).mem = s.mem.write s.pc .word (BitVec.ofNat 32 (w % 2 ^ n)) := rfl

/-! ### What a register reads -/

@[simp] theorem reg_setReg (s : State) (r q : Reg) (v : Word) :
    (s.setReg r v).reg q = if q = r then v else s.reg q := by
  simp [State.reg, State.setReg, Vector.getElem_set, Fin.ext_iff, eq_comm]

theorem reg_setReg_same (s : State) (r : Reg) (v : Word) : (s.setReg r v).reg r = v := by simp

@[simp] theorem reg_advance (s : State) (q : Reg) :
    (advance s).reg q = if q = 0 then 0 else s.reg q :=
  reg_setReg s 0 q 0

@[simp] theorem reg_raise (d : Diag) (s : State) (q : Reg) : (raise d s).reg q = s.reg q := rfl

@[simp] theorem reg_haltClean (s : State) (q : Reg) : (haltClean s).reg q = s.reg q := rfl

@[simp] theorem reg_request (req : Option Word) (s : State) (q : Reg) :
    (request req s).reg q = s.reg q := by
  cases req <;> rfl

/-- Two register files that read alike are equal. -/
theorem regs_ext {s t : State} (h : ∀ r, s.reg r = t.reg r) : s.regs = t.regs :=
  Vector.ext fun i hi => h ⟨i, hi⟩

/-- Writing x[0] twice is writing it once: phase 2 forgets what x[0] held (R22). -/
@[simp] theorem advance_setReg_zero (s : State) (v : Word) : advance (s.setReg 0 v) = advance s := by
  simp [advance, State.setReg]

/-! ### What memory reads -/

@[simp] theorem byteAt_setReg (s : State) (r : Reg) (v a : Word) :
    (s.setReg r v).byteAt a = s.byteAt a := rfl

@[simp] theorem byteAt_advance (s : State) (a : Word) : (advance s).byteAt a = s.byteAt a := rfl

@[simp] theorem byteAt_raise (d : Diag) (s : State) (a : Word) :
    (raise d s).byteAt a = s.byteAt a := rfl

@[simp] theorem byteAt_haltClean (s : State) (a : Word) : (haltClean s).byteAt a = s.byteAt a := rfl

@[simp] theorem byteAt_request (req : Option Word) (s : State) (a : Word) :
    (request req s).byteAt a = s.byteAt a := by
  cases req <;> rfl

end Sys2Proof.Machine
end

