-- ==== Sys2Proof/Laws/Ops.lean ====
section
/-! SUPPORT. For each shared operation, once, everything it can do. Proofs about instructions and
steps cite these lemmas instead of unfolding the operation. -/

namespace Sys2Proof.Machine

/-- The default admission (R44), as a proposition. -/
theorem admits_sized (n : Nat) (a : Word) (w : Width) :
    (Admission.sized n).admits a w = true ↔ a.toNat % w.bytes = 0 ∧ a.toNat + w.bytes ≤ n := by
  simp [Admission.admits]

/-- Any other contract admits exactly the accesses it lists (R44). -/
theorem admits_listed (l : List (Word × Width)) (a : Word) (w : Width) :
    (Admission.listed l).admits a w = true ↔ (a, w) ∈ l := by
  simp [Admission.admits]

theorem memRead_admitted {s : State} {a : Word} {w : Width} (h : s.admission.admits a w = true) :
    memRead s a w = some (s.mem.read a w) := by
  simp [memRead, h]

theorem memRead_refused {s : State} {a : Word} {w : Width} (h : s.admission.admits a w = false) :
    memRead s a w = none := by
  simp [memRead, h]

theorem memRead_some {s : State} {a : Word} {w : Width} {v : Word} (h : memRead s a w = some v) :
    s.admission.admits a w = true ∧ v = s.mem.read a w := by
  unfold memRead at h
  split at h <;> simp_all

theorem memWrite_admitted {s : State} {a : Word} {w : Width} {v : Word}
    (h : s.admission.admits a w = true) :
    memWrite s a w v = some { s with mem := s.mem.write a w v } := by
  simp [memWrite, h]

theorem memWrite_refused {s : State} {a : Word} {w : Width} {v : Word}
    (h : s.admission.admits a w = false) : memWrite s a w v = none := by
  simp [memWrite, h]

/-- A checked write: the destination is written, and the error is recorded if the check fires. -/
theorem writeChecked_eq (rd : Reg) (r : Word) (ovf : Bool) (a b : Word) (s : State) :
    writeChecked rd r ovf a b s =
      .next (if ovf then raise (.arithmeticOverflow a b) (s.setReg rd r) else s.setReg rd r) :=
  rfl

/-- A load answers a next state: the register is written if the read is admitted, and a memory
access fault is raised if not. -/
theorem load_cases (w : Width) (rt : Reg) (ea : Word) (s : State) :
    (s.admission.admits ea w = true ∧ load w rt ea s = .next (s.setReg rt (s.mem.read ea w))) ∨
    (s.admission.admits ea w = false ∧
      load w rt ea s = .next (raise (.memoryAccessFault ea w) s)) := by
  cases h : s.admission.admits ea w with
  | true => exact .inl ⟨rfl, by simp [load, memRead_admitted h]⟩
  | false => exact .inr ⟨rfl, by simp [load, memRead_refused h]⟩

/-- A store answers a next state: memory is written if the write is admitted, and a memory access
fault is raised if not. -/
theorem store_cases (w : Width) (v ea : Word) (s : State) :
    (s.admission.admits ea w = true ∧
      store w v ea s = .next { s with mem := s.mem.write ea w v }) ∨
    (s.admission.admits ea w = false ∧
      store w v ea s = .next (raise (.memoryAccessFault ea w) s)) := by
  cases h : s.admission.admits ea w with
  | true => exact .inl ⟨rfl, by simp [store, memWrite_admitted h]⟩
  | false => exact .inr ⟨rfl, by simp [store, memWrite_refused h]⟩

/-- A CTI is refused with a redirect pending and makes its request otherwise. -/
theorem controlTransfer_cases (req : Option Word) (s : State) :
    (s.pendValid = true ∧ controlTransfer req s = .refused .ctiInDelaySlot) ∨
    (s.pendValid = false ∧ controlTransfer req s = .next (request req s)) := by
  cases h : s.pendValid with
  | true => exact .inl ⟨rfl, by simp [controlTransfer, h]⟩
  | false => exact .inr ⟨rfl, by simp [controlTransfer, h]⟩

/-- The sequencer either keeps the state or takes the pending redirect of a delay slot. -/
theorem sequence_cases (slot : Bool) (s : State) :
    (slot = true ∧ s.term = .running ∧
      sequence slot s = { s with pc := s.pendTarget, pendValid := false }) ∨
    ((slot = false ∨ s.term ≠ .running) ∧ sequence slot s = s) := by
  unfold sequence
  split <;> simp_all

theorem sequence_ended {slot : Bool} {s : State} (h : s.term ≠ .running) : sequence slot s = s := by
  rcases sequence_cases slot s with ⟨-, hr, -⟩ | ⟨-, he⟩
  · exact absurd hr h
  · exact he

theorem sequence_slot {s : State} (h : s.term = .running) :
    sequence true s = { s with pc := s.pendTarget, pendValid := false } := by
  simp [sequence, h]

@[simp] theorem sequence_idle (s : State) : sequence false s = s := by
  unfold sequence
  split <;> simp_all

@[simp] theorem sequence_regs (b : Bool) (s : State) : (sequence b s).regs = s.regs := by
  unfold sequence; split <;> rfl
@[simp] theorem sequence_pendTarget (b : Bool) (s : State) :
    (sequence b s).pendTarget = s.pendTarget := by
  unfold sequence; split <;> rfl
@[simp] theorem sequence_term (b : Bool) (s : State) : (sequence b s).term = s.term := by
  unfold sequence; split <;> rfl
@[simp] theorem sequence_cause (b : Bool) (s : State) : (sequence b s).cause = s.cause := by
  unfold sequence; split <;> rfl
@[simp] theorem sequence_mem (b : Bool) (s : State) : (sequence b s).mem = s.mem := by
  unfold sequence; split <;> rfl
@[simp] theorem sequence_diags (b : Bool) (s : State) : (sequence b s).diags = s.diags := by
  unfold sequence; split <;> rfl
@[simp] theorem sequence_admission (b : Bool) (s : State) :
    (sequence b s).admission = s.admission := by
  unfold sequence; split <;> rfl
@[simp] theorem reg_sequence (b : Bool) (s : State) (r : Reg) :
    (sequence b s).reg r = s.reg r := by
  unfold sequence; split <;> rfl

/-- R142 as the spec writes it, with the request as an argument. -/
def specSequence (slot : Bool) (req : Option Word) (s : State) : State :=
  let s1 := if slot then { s with pc := s.pendTarget, pendValid := false } else s
  match req with
  | some t => { s1 with pendValid := true, pendTarget := t }
  | none => s1

/-- Recording the request where the CTI executes is R142's transition, since no request is made in
a delay slot (R143). -/
theorem sequence_request (slot : Bool) (req : Option Word) (s : State) (h : slot = false ∨ req = none)
    (hr : s.term = .running) : sequence slot (request req s) = specSequence slot req s := by
  cases slot <;> cases req <;> simp_all [specSequence, sequence, request]

end Sys2Proof.Machine
end

