-- ==== Sys2Proof/Laws/Exec.lean ====
section
/-! SUPPORT. What the dispatcher can answer, once for all instructions: it answers a next state, or
it refuses a CTI in a delay slot (R105, R143), and a next state has one of six forms. -/

namespace Sys2Proof.Machine

/-- The six forms a next state of `exec` has. -/
inductive Effect (i : Instr) (s : State) : State → Prop
  /-- One register of R32's table is written, and nothing else changes. -/
  | writes (r : Reg) (v : Word) (hw : r ∈ i.writes) (hc : i.isCti = false) :
      Effect i s (s.setReg r v)
  /-- The destination is written and the overflow is raised (R162). -/
  | overflows (r : Reg) (v a b : Word) (hw : r ∈ i.writes) (hc : i.checksOverflow = true) :
      Effect i s (raise (.arithmeticOverflow a b) (s.setReg r v))
  /-- An access is not admitted (R163). -/
  | faults (ea : Word) (w : Width) (hi : i.isLoad = true ∨ i.isStore = true)
      (ha : s.admission.admits ea w = false) : Effect i s (raise (.memoryAccessFault ea w) s)
  /-- A store writes memory (R130). -/
  | stores (ea : Word) (w : Width) (v : Word) (hi : i.isStore = true)
      (ha : s.admission.admits ea w = true) : Effect i s { s with mem := s.mem.write ea w v }
  /-- A CTI makes its request; the registers it wrote first are those of R32 (R141). -/
  | transfers (req : Option Word) (u : State) (hi : i.isCti = true) (hp : s.pendValid = false)
      (hu : u = s ∨ ∃ r v, r ∈ i.writes ∧ u = s.setReg r v) : Effect i s (request req u)
  /-- The sentinel ends the run (R103). -/
  | halts (hi : i = .halt) : Effect i s (haltClean s)

theorem load_effect {i : Instr} {w : Width} {rt : Reg} {ea : Word} {s t : State}
    (hw : rt ∈ i.writes) (hc : i.isCti = false) (hl : i.isLoad = true)
    (h : load w rt ea s = .next t) : Effect i s t := by
  rcases load_cases w rt ea s with ⟨-, he⟩ | ⟨ha, he⟩ <;> rw [he] at h <;> injection h with h <;>
    subst h
  · exact .writes _ _ hw hc
  · exact .faults _ _ (.inl hl) ha

theorem store_effect {i : Instr} {w : Width} {v ea : Word} {s t : State} (hs : i.isStore = true)
    (h : store w v ea s = .next t) : Effect i s t := by
  rcases store_cases w v ea s with ⟨ha, he⟩ | ⟨ha, he⟩ <;> rw [he] at h <;> injection h with h <;>
    subst h
  · exact .stores _ _ _ hs ha
  · exact .faults _ _ (.inr hs) ha

theorem controlTransfer_effect {i : Instr} {req : Option Word} {s u t : State}
    (hi : i.isCti = true) (hp : u.pendValid = s.pendValid)
    (hu : u = s ∨ ∃ r v, r ∈ i.writes ∧ u = s.setReg r v)
    (h : controlTransfer req u = .next t) : Effect i s t := by
  rcases controlTransfer_cases req u with ⟨-, he⟩ | ⟨hf, he⟩ <;> rw [he] at h
  · cases h
  · injection h with h
    subst h
    exact .transfers _ _ hi (hp ▸ hf) hu

theorem writeChecked_effect {i : Instr} {rd : Reg} {r a b : Word} {ovf : Bool} {s t : State}
    (hw : rd ∈ i.writes) (hc : i.isCti = false) (ho : i.checksOverflow = true)
    (h : writeChecked rd r ovf a b s = .next t) : Effect i s t := by
  rw [writeChecked_eq] at h
  injection h with h
  subst h
  cases ovf
  · exact .writes _ _ hw hc
  · exact .overflows _ _ _ _ hw ho

/-- Every next state of an instruction has one of the six forms. -/
theorem exec_effect {i : Instr} {s t : State} (h : exec i s = .next t) : Effect i s t := by
  cases i with
  | add | sub | addi =>
    exact writeChecked_effect (by simp [Instr.writes]) rfl rfl h
  | lw | lbu | lhu => exact load_effect (by simp [Instr.writes]) rfl rfl h
  | sw | sb | sh => exact store_effect rfl h
  | jr | j | beq | bne | blez | bgtz => exact controlTransfer_effect rfl rfl (.inl rfl) h
  | jal target =>
    have hu : s.setReg Config.linkReg (linkValue s.pc) = s ∨ ∃ r v,
        r ∈ (Instr.jal target).writes ∧
          s.setReg Config.linkReg (linkValue s.pc) = s.setReg r v :=
      .inr ⟨Config.linkReg, _, List.mem_singleton.mpr rfl, rfl⟩
    exact controlTransfer_effect rfl (setReg_pendValid ..) hu h
  | halt =>
    cases h
    exact .halts rfl
  | sll | srl | addu | subu | and | or | nor | slt | sltu | addiu | slti | sltiu | andi | ori
  | lui =>
    cases h
    exact .writes _ _ (by simp [Instr.writes]) rfl

/-- A CTI checks no overflow and accesses no data memory (R141, R160). -/
theorem cti_only_transfers {i : Instr} (hi : i.isCti = true) :
    i.checksOverflow = false ∧ i.isLoad = false ∧ i.isStore = false ∧ i ≠ .halt := by
  cases i <;> simp_all [Instr.isCti, Instr.checksOverflow, Instr.isLoad, Instr.isStore]

/-- A next state of a CTI is its request, over a state that differs at most in a register R32 says
it writes. -/
theorem exec_cti_effect {i : Instr} {s t : State} (hi : i.isCti = true) (h : exec i s = .next t) :
    s.pendValid = false ∧ ∃ req u, t = request req u ∧
      (u = s ∨ ∃ r v, r ∈ i.writes ∧ u = s.setReg r v) := by
  obtain ⟨h1, h2, h3, h4⟩ := cti_only_transfers hi
  cases exec_effect h with
  | writes _ _ _ hc => simp [hi] at hc
  | overflows _ _ _ _ _ hc => simp [h1] at hc
  | faults _ _ hl => simp [h2, h3] at hl
  | stores _ _ _ hs => simp [h3] at hs
  | transfers req u _ hp hu => exact ⟨hp, req, u, rfl, hu⟩
  | halts he => exact absurd he h4

/-- An instruction that is no CTI answers a next state from every state. -/
theorem exec_completes {i : Instr} (hi : i.isCti = false) (s : State) : ∃ t, exec i s = .next t := by
  cases i with
  | jr | j | beq | bne | blez | bgtz | jal => simp [Instr.isCti] at hi
  | lw rt rs imm =>
    rcases load_cases .word rt (effAddr (s.reg rs) imm) s with ⟨-, he⟩ | ⟨-, he⟩ <;> exact ⟨_, he⟩
  | lbu rt rs imm =>
    rcases load_cases .byte rt (effAddr (s.reg rs) imm) s with ⟨-, he⟩ | ⟨-, he⟩ <;> exact ⟨_, he⟩
  | lhu rt rs imm =>
    rcases load_cases .half rt (effAddr (s.reg rs) imm) s with ⟨-, he⟩ | ⟨-, he⟩ <;> exact ⟨_, he⟩
  | sw rt rs imm =>
    rcases store_cases .word (s.reg rt) (effAddr (s.reg rs) imm) s with ⟨-, he⟩ | ⟨-, he⟩ <;>
      exact ⟨_, he⟩
  | sb rt rs imm =>
    rcases store_cases .byte (s.reg rt) (effAddr (s.reg rs) imm) s with ⟨-, he⟩ | ⟨-, he⟩ <;>
      exact ⟨_, he⟩
  | sh rt rs imm =>
    rcases store_cases .half (s.reg rt) (effAddr (s.reg rs) imm) s with ⟨-, he⟩ | ⟨-, he⟩ <;>
      exact ⟨_, he⟩
  | sll | srl | add | addu | sub | subu | and | or | nor | slt | sltu | addi | addiu | slti | sltiu
  | andi | ori | lui | halt => exact ⟨_, rfl⟩

/-- A CTI answers a next state exactly with no redirect pending. -/
theorem exec_cti {i : Instr} (hi : i.isCti = true) (s : State) :
    (s.pendValid = false ∧ ∃ t, exec i s = .next t) ∨
    (s.pendValid = true ∧ exec i s = .refused .ctiInDelaySlot) := by
  have key : ∀ (req : Option Word) (u : State), u.pendValid = s.pendValid →
      (s.pendValid = false ∧ ∃ t, controlTransfer req u = .next t) ∨
      (s.pendValid = true ∧ controlTransfer req u = .refused .ctiInDelaySlot) := by
    intro req u hu
    rcases controlTransfer_cases req u with ⟨hp, he⟩ | ⟨hp, he⟩
    · exact .inr ⟨hu ▸ hp, he⟩
    · exact .inl ⟨hu ▸ hp, _, he⟩
  cases i with
  | jr | j | beq | bne | blez | bgtz | jal => exact key _ _ rfl
  | sll | srl | add | addu | sub | subu | and | or | nor | slt | sltu | addi | addiu | slti | sltiu
  | andi | ori | lui | lw | lbu | lhu | sb | sh | sw | halt => simp [Instr.isCti] at hi

end Sys2Proof.Machine
end

