-- ==== Sys2Proof/Laws/Cycle.lean ====
section
/-! SUPPORT. What a fetch finds and what a step can answer, once, phase by phase (R100, R168). -/

namespace Sys2Proof.Machine

theorem aligned4_iff (a : Word) : Aligned4 a ↔ a.extractLsb' 0 2 = 0#2 := by
  simp [Aligned4, ← BitVec.toNat_inj]

/-- The word at the PC is what a word read at the PC gives (R41, R42). -/
theorem read_pc (s : State) : s.mem.read s.pc .word = s.wordAtPc := rfl

theorem fetch_misaligned {s : State} (h : ¬ Aligned4 s.pc) : fetch s = .misaligned := by
  rw [aligned4_iff] at h
  simp [fetch, h]

theorem fetch_notAdmitted {s : State} (h : Aligned4 s.pc)
    (ha : s.admission.admits s.pc .word = false) : fetch s = .notAdmitted := by
  rw [aligned4_iff] at h
  simp [fetch, h, memRead_refused ha]

theorem fetch_word {s : State} (h : Aligned4 s.pc) (ha : s.admission.admits s.pc .word = true) :
    fetch s = .word s.wordAtPc := by
  rw [aligned4_iff] at h
  simp [fetch, h, memRead_admitted ha, read_pc]

/-! ### A step, one lemma per way it can go, in the order of R168 -/

theorem step_ended {s : State} (h : s.term ≠ .running) : step s = .fault .runEnded := by
  cases ht : s.term <;> simp_all [step, cycle]

theorem step_misaligned {s : State} (hr : s.term = .running) (h : ¬ Aligned4 s.pc) :
    step s = .refused .misalignedFetch := by
  simp [step, cycle, hr, fetch_misaligned h]

theorem step_notAdmitted {s : State} (hr : s.term = .running) (h : Aligned4 s.pc)
    (ha : s.admission.admits s.pc .word = false) :
    step s = .next (raise (.memoryAccessFault s.pc .word) s) := by
  simp [step, cycle, hr, fetch_notAdmitted h ha]

theorem step_illegal {s : State} (hf : s.fetchable) {r : Reject}
    (hd : decode s.wordAtPc = .error r) :
    step s = .next (raise (.illegalInstruction s.wordAtPc) (advance s)) := by
  obtain ⟨hr, h, ha⟩ := hf
  simp [step, cycle, runWord, hr, fetch_word h ha, hd]

theorem step_executes {s : State} (hf : s.fetchable) {i : Instr}
    (hd : decode s.wordAtPc = .ok i) :
    step s = retire s.pendValid (exec i (advance s)) := by
  obtain ⟨hr, h, ha⟩ := hf
  simp [step, cycle, runWord, hr, fetch_word h ha, hd]

/-- The three ways a step answers a next state: a fetch fault, an illegal word, or an instruction
that completed, followed by the sequencer. -/
inductive Stepped (s : State) : State → Prop
  | fetchFault (hr : s.term = .running) (h : Aligned4 s.pc)
      (ha : s.admission.admits s.pc .word = false) :
      Stepped s (raise (.memoryAccessFault s.pc .word) s)
  | illegal (r : Reject) (hf : s.fetchable) (hd : decode s.wordAtPc = .error r) :
      Stepped s (raise (.illegalInstruction s.wordAtPc) (advance s))
  | executed (i : Instr) (u : State) (hf : s.fetchable) (hd : decode s.wordAtPc = .ok i)
      (he : Effect i (advance s) u) (hx : exec i (advance s) = .next u) :
      Stepped s (sequence s.pendValid u)

/-- Everything a step that answers a next state can have done. -/
theorem step_stepped {s t : State} (h : step s = .next t) : Stepped s t := by
  by_cases hr : s.term = .running
  · by_cases hp : Aligned4 s.pc
    · cases ha : s.admission.admits s.pc .word with
      | false =>
        rw [step_notAdmitted hr hp ha] at h
        injection h with h
        subst h
        exact .fetchFault hr hp ha
      | true =>
        have hf : s.fetchable := ⟨hr, hp, ha⟩
        cases hd : decode s.wordAtPc with
        | error r =>
          rw [step_illegal hf hd] at h
          injection h with h
          subst h
          exact .illegal r hf hd
        | ok i =>
          rw [step_executes hf hd] at h
          cases hx : exec i (advance s) with
          | next u =>
            rw [hx] at h
            injection h with h
            subst h
            exact .executed i u hf hd (exec_effect hx) hx
          | fault r => rw [hx] at h; cases h
          | refused r => rw [hx] at h; cases h
    · rw [step_misaligned hr hp] at h
      cases h
  · rw [step_ended hr] at h
    cases h

/-! ### Runs, one step at a time (R107) -/

theorem run_zero (s : State) : Sys2Proof.core.run 0 s = .next s := rfl

theorem run_next {s t : State} (h : step s = .next t) (k : Nat) :
    Sys2Proof.core.run (k + 1) s = Sys2Proof.core.run k t := by
  simp [Host.Core.run, core, h]

theorem run_refused {s : State} {r : Refusal} (h : step s = .refused r) (k : Nat) :
    Sys2Proof.core.run (k + 1) s = .refused r := by
  simp [Host.Core.run, core, h]

theorem run_fault {s : State} {r : Fault} (h : step s = .fault r) (k : Nat) :
    Sys2Proof.core.run (k + 1) s = .fault r := by
  simp [Host.Core.run, core, h]

end Sys2Proof.Machine
end

