-- ==== Sys2Proof/Laws/Decode.lean ====
section
/-! SUPPORT. What each field of an encoded word is (R61, R62), and the two levels of the decoder on
encoded words (R65). -/

namespace Sys2Proof

@[simp] theorem regOfBits_regBits (r : Reg) : regOfBits (regBits r) = r := by
  have := r.isLt
  simp [regOfBits, regBits]

@[simp] theorem regBits_regOfBits (b : BitVec 5) : regBits (regOfBits b) = b := by
  simp [regOfBits, regBits]

/-! ### Bits of the three formats (R62) -/

theorem getLsbD_wordR (rs rt rd : Reg) (sh : BitVec 5) (f : BitVec 6) (k : Nat) :
    (wordR rs rt rd sh f).getLsbD k =
      if k < 6 then f.getLsbD k else if k < 11 then sh.getLsbD (k - 6)
      else if k < 16 then (regBits rd).getLsbD (k - 11)
      else if k < 21 then (regBits rt).getLsbD (k - 16)
      else if k < 26 then (regBits rs).getLsbD (k - 21) else false := by
  simp only [wordR, BitVec.getLsbD_append, BitVec.getLsbD_zero]
  split_ifs <;> first | rfl | omega

theorem getLsbD_wordI (op : BitVec 6) (rs rt : Reg) (imm : Imm16) (k : Nat) :
    (wordI op rs rt imm).getLsbD k =
      if k < 16 then imm.getLsbD k else if k < 21 then (regBits rt).getLsbD (k - 16)
      else if k < 26 then (regBits rs).getLsbD (k - 21) else op.getLsbD (k - 26) := by
  simp only [wordI, BitVec.getLsbD_append]
  split_ifs <;> first | rfl | omega

theorem getLsbD_wordJ (op : BitVec 6) (t : Target26) (k : Nat) :
    (wordJ op t).getLsbD k = if k < 26 then t.getLsbD k else op.getLsbD (k - 26) := by
  simp only [wordJ, BitVec.getLsbD_append]

/-! ### Fields of the three formats -/

@[simp] theorem opField_wordR (rs rt rd : Reg) (sh : BitVec 5) (f : BitVec 6) :
    opField (wordR rs rt rd sh f) = 0#6 := by
  have h : (wordR rs rt rd sh f).extractLsb' 26 6 = 0#6 := by
    refine BitVec.eq_of_getLsbD_eq fun k hk => ?_
    simp only [BitVec.getLsbD_extractLsb', getLsbD_wordR, hk, decide_true, Bool.true_and]
    simp only [BitVec.getLsbD_zero]
    split_ifs <;> first | omega | rfl
  rw [opField, h]

@[simp] theorem functField_wordR (rs rt rd : Reg) (sh : BitVec 5) (f : BitVec 6) :
    functField (wordR rs rt rd sh f) = f := by
  have h : (wordR rs rt rd sh f).extractLsb' 0 6 = f := by
    refine BitVec.eq_of_getLsbD_eq fun k hk => ?_
    simp only [BitVec.getLsbD_extractLsb', getLsbD_wordR, hk, decide_true, Bool.true_and]
    split_ifs <;> first | omega | (congr 1; omega)
  rw [functField, h]

@[simp] theorem shamtField_wordR (rs rt rd : Reg) (sh : BitVec 5) (f : BitVec 6) :
    shamtField (wordR rs rt rd sh f) = sh.toNat := by
  have h : (wordR rs rt rd sh f).extractLsb' 6 5 = sh := by
    refine BitVec.eq_of_getLsbD_eq fun k hk => ?_
    simp only [BitVec.getLsbD_extractLsb', getLsbD_wordR, hk, decide_true, Bool.true_and]
    split_ifs <;> first | omega | (congr 1; omega)
  rw [shamtField, h]

@[simp] theorem rdField_wordR (rs rt rd : Reg) (sh : BitVec 5) (f : BitVec 6) :
    rdField (wordR rs rt rd sh f) = rd := by
  have h : (wordR rs rt rd sh f).extractLsb' 11 5 = regBits rd := by
    refine BitVec.eq_of_getLsbD_eq fun k hk => ?_
    simp only [BitVec.getLsbD_extractLsb', getLsbD_wordR, hk, decide_true, Bool.true_and]
    split_ifs <;> first | omega | (congr 1; omega)
  rw [rdField, h, regOfBits_regBits]

@[simp] theorem rtField_wordR (rs rt rd : Reg) (sh : BitVec 5) (f : BitVec 6) :
    rtField (wordR rs rt rd sh f) = rt := by
  have h : (wordR rs rt rd sh f).extractLsb' 16 5 = regBits rt := by
    refine BitVec.eq_of_getLsbD_eq fun k hk => ?_
    simp only [BitVec.getLsbD_extractLsb', getLsbD_wordR, hk, decide_true, Bool.true_and]
    split_ifs <;> first | omega | (congr 1; omega)
  rw [rtField, h, regOfBits_regBits]

@[simp] theorem rsField_wordR (rs rt rd : Reg) (sh : BitVec 5) (f : BitVec 6) :
    rsField (wordR rs rt rd sh f) = rs := by
  have h : (wordR rs rt rd sh f).extractLsb' 21 5 = regBits rs := by
    refine BitVec.eq_of_getLsbD_eq fun k hk => ?_
    simp only [BitVec.getLsbD_extractLsb', getLsbD_wordR, hk, decide_true, Bool.true_and]
    split_ifs <;> first | omega | (congr 1; omega)
  rw [rsField, h, regOfBits_regBits]

@[simp] theorem opField_wordI (op : BitVec 6) (rs rt : Reg) (imm : Imm16) :
    opField (wordI op rs rt imm) = op := by
  have h : (wordI op rs rt imm).extractLsb' 26 6 = op := by
    refine BitVec.eq_of_getLsbD_eq fun k hk => ?_
    simp only [BitVec.getLsbD_extractLsb', getLsbD_wordI, hk, decide_true, Bool.true_and]
    split_ifs <;> first | omega | (congr 1; omega)
  rw [opField, h]

@[simp] theorem immField_wordI (op : BitVec 6) (rs rt : Reg) (imm : Imm16) :
    immField (wordI op rs rt imm) = imm := by
  have h : (wordI op rs rt imm).extractLsb' 0 16 = imm := by
    refine BitVec.eq_of_getLsbD_eq fun k hk => ?_
    simp only [BitVec.getLsbD_extractLsb', getLsbD_wordI, hk, decide_true, Bool.true_and]
    split_ifs <;> first | omega | (congr 1; omega)
  rw [immField, h]

@[simp] theorem rtField_wordI (op : BitVec 6) (rs rt : Reg) (imm : Imm16) :
    rtField (wordI op rs rt imm) = rt := by
  have h : (wordI op rs rt imm).extractLsb' 16 5 = regBits rt := by
    refine BitVec.eq_of_getLsbD_eq fun k hk => ?_
    simp only [BitVec.getLsbD_extractLsb', getLsbD_wordI, hk, decide_true, Bool.true_and]
    split_ifs <;> first | omega | (congr 1; omega)
  rw [rtField, h, regOfBits_regBits]

@[simp] theorem rsField_wordI (op : BitVec 6) (rs rt : Reg) (imm : Imm16) :
    rsField (wordI op rs rt imm) = rs := by
  have h : (wordI op rs rt imm).extractLsb' 21 5 = regBits rs := by
    refine BitVec.eq_of_getLsbD_eq fun k hk => ?_
    simp only [BitVec.getLsbD_extractLsb', getLsbD_wordI, hk, decide_true, Bool.true_and]
    split_ifs <;> first | omega | (congr 1; omega)
  rw [rsField, h, regOfBits_regBits]

@[simp] theorem opField_wordJ (op : BitVec 6) (t : Target26) :
    opField (wordJ op t) = op := by
  have h : (wordJ op t).extractLsb' 26 6 = op := by
    refine BitVec.eq_of_getLsbD_eq fun k hk => ?_
    simp only [BitVec.getLsbD_extractLsb', getLsbD_wordJ, hk, decide_true, Bool.true_and]
    split_ifs <;> first | omega | (congr 1; omega)
  rw [opField, h]

@[simp] theorem targetField_wordJ (op : BitVec 6) (t : Target26) :
    targetField (wordJ op t) = t := by
  have h : (wordJ op t).extractLsb' 0 26 = t := by
    refine BitVec.eq_of_getLsbD_eq fun k hk => ?_
    simp only [BitVec.getLsbD_extractLsb', getLsbD_wordJ, hk, decide_true, Bool.true_and]
    split_ifs <;> first | omega | (congr 1; omega)
  rw [targetField, h]

/-! ### Every word is the word of its fields -/

theorem wordR_of_fields (w : Word) (h : opField w = 0#6) :
    wordR (rsField w) (rtField w) (rdField w) (w.extractLsb' 6 5) (functField w) = w := by
  refine BitVec.eq_of_getLsbD_eq fun k hk => ?_
  have h' : ∀ j, j < 6 → w.getLsbD (26 + j) = false := fun j hj => by
    simpa [opField, hj] using congrArg (BitVec.getLsbD · j) h
  simp only [getLsbD_wordR, rsField, rtField, rdField, regBits_regOfBits, functField,
    BitVec.getLsbD_extractLsb']
  split_ifs
  · simp [*]
  · simp [show k - 6 < 5 by omega, show 6 + (k - 6) = k by omega]
  · simp [show k - 11 < 5 by omega, show 11 + (k - 11) = k by omega]
  · simp [show k - 16 < 5 by omega, show 16 + (k - 16) = k by omega]
  · simp [show k - 21 < 5 by omega, show 21 + (k - 21) = k by omega]
  · rw [← h' (k - 26) (by omega), show 26 + (k - 26) = k by omega]

theorem wordI_of_fields (w : Word) :
    wordI (opField w) (rsField w) (rtField w) (immField w) = w := by
  refine BitVec.eq_of_getLsbD_eq fun k hk => ?_
  simp only [getLsbD_wordI, rsField, rtField, regBits_regOfBits, immField, opField,
    BitVec.getLsbD_extractLsb']
  split_ifs
  · simp [*]
  · simp [show k - 16 < 5 by omega, show 16 + (k - 16) = k by omega]
  · simp [show k - 21 < 5 by omega, show 21 + (k - 21) = k by omega]
  · simp [show k - 26 < 6 by omega, show 26 + (k - 26) = k by omega]

theorem wordJ_of_fields (w : Word) : wordJ (opField w) (targetField w) = w := by
  refine BitVec.eq_of_getLsbD_eq fun k hk => ?_
  simp only [getLsbD_wordJ, targetField, opField, BitVec.getLsbD_extractLsb']
  split_ifs
  · simp [*]
  · simp [show k - 26 < 6 by omega, show 26 + (k - 26) = k by omega]

/-! ### The two levels of the decoder -/

/-- The sentinel's op field is 0x3F (R69). -/
theorem opField_haltWord : opField Config.haltWord = 0x3F#6 := by decide

/-- A word whose op is not the sentinel's goes to the primary dispatch. -/
theorem decode_of_op {w : Word} (h : opField w ≠ 0x3F#6) : decode w = decodeOp w := by
  have hw : w ≠ Config.haltWord := fun e => h (e ▸ opField_haltWord)
  simp [decode, hw]

/-- An R-type word is dispatched by its function code. -/
theorem decode_wordR (rs rt rd : Reg) (sh : BitVec 5) (f : BitVec 6) :
    decode (wordR rs rt rd sh f) = decodeRType (wordR rs rt rd sh f) := by
  rw [decode_of_op (by simp)]
  simp [decodeOp]

/-- An I-type word other than the sentinel's op is dispatched by its op. -/
theorem decode_wordI {op : BitVec 6} (h : op ≠ 0x3F#6) (rs rt : Reg) (imm : Imm16) :
    decode (wordI op rs rt imm) = decodeOp (wordI op rs rt imm) :=
  decode_of_op (by simpa using h)

/-- A J-type word other than the sentinel's op is dispatched by its op. -/
theorem decode_wordJ {op : BitVec 6} (h : op ≠ 0x3F#6) (t : Target26) :
    decode (wordJ op t) = decodeOp (wordJ op t) :=
  decode_of_op (by simpa using h)

end Sys2Proof
end

