-- ==== Sys2Proof/Laws/PerInstr.lean ====
section
/-! SUPPORT. Statements made per instruction (LAWS.json): the encoding of an instruction hits its own
row of the opcode table (R64), whatever the operands. -/

namespace Sys2Proof

theorem wordR_hits (rs rt rd : Reg) (sh : BitVec 5) (funct : BitVec 6) (used : Word) :
    (rowR funct used).hit (wordR rs rt rd sh funct) = true := by
  simp only [Row.hit, rowR, wordR, beq_iff_eq]
  ext i hi
  simp only [BitVec.getElem_and, BitVec.getElem_append]
  interval_cases i <;> simp

theorem wordI_hits (op : BitVec 6) (rs rt : Reg) (imm : Imm16) (used : Word) :
    (rowOp op used).hit (wordI op rs rt imm) = true := by
  simp only [Row.hit, rowOp, wordI, beq_iff_eq]
  ext i hi
  simp only [BitVec.getElem_and, BitVec.getElem_append]
  interval_cases i <;> simp

theorem wordJ_hits (op : BitVec 6) (t : Target26) (used : Word) :
    (rowOp op used).hit (wordJ op t) = true := by
  simp only [Row.hit, rowOp, wordJ, beq_iff_eq]
  ext i hi
  simp only [BitVec.getElem_and, BitVec.getElem_append]
  interval_cases i <;> simp

namespace Laws.RowHit

/-- The encoding of `i` hits the row of `i`. -/
def Statement (i : Instr) : Prop := i.row.hit (encode i) = true

theorem sll (rd rt : Reg) (shamt : Nat) : Statement (.sll rd rt shamt) :=
  wordR_hits _ _ _ _ _ _

theorem srl (rd rt : Reg) (shamt : Nat) : Statement (.srl rd rt shamt) :=
  wordR_hits _ _ _ _ _ _

theorem jr (rs : Reg) : Statement (.jr rs) :=
  wordR_hits _ _ _ _ _ _

theorem add (rd rs rt : Reg) : Statement (.add rd rs rt) :=
  wordR_hits _ _ _ _ _ _

theorem addu (rd rs rt : Reg) : Statement (.addu rd rs rt) :=
  wordR_hits _ _ _ _ _ _

theorem sub (rd rs rt : Reg) : Statement (.sub rd rs rt) :=
  wordR_hits _ _ _ _ _ _

theorem subu (rd rs rt : Reg) : Statement (.subu rd rs rt) :=
  wordR_hits _ _ _ _ _ _

theorem and (rd rs rt : Reg) : Statement (.and rd rs rt) :=
  wordR_hits _ _ _ _ _ _

theorem or (rd rs rt : Reg) : Statement (.or rd rs rt) :=
  wordR_hits _ _ _ _ _ _

theorem nor (rd rs rt : Reg) : Statement (.nor rd rs rt) :=
  wordR_hits _ _ _ _ _ _

theorem slt (rd rs rt : Reg) : Statement (.slt rd rs rt) :=
  wordR_hits _ _ _ _ _ _

theorem sltu (rd rs rt : Reg) : Statement (.sltu rd rs rt) :=
  wordR_hits _ _ _ _ _ _

theorem beq (rs rt : Reg) (imm : Imm16) : Statement (.beq rs rt imm) :=
  wordI_hits _ _ _ _ _

theorem bne (rs rt : Reg) (imm : Imm16) : Statement (.bne rs rt imm) :=
  wordI_hits _ _ _ _ _

theorem blez (rs : Reg) (imm : Imm16) : Statement (.blez rs imm) :=
  wordI_hits _ _ _ _ _

theorem bgtz (rs : Reg) (imm : Imm16) : Statement (.bgtz rs imm) :=
  wordI_hits _ _ _ _ _

theorem addi (rt rs : Reg) (imm : Imm16) : Statement (.addi rt rs imm) :=
  wordI_hits _ _ _ _ _

theorem addiu (rt rs : Reg) (imm : Imm16) : Statement (.addiu rt rs imm) :=
  wordI_hits _ _ _ _ _

theorem slti (rt rs : Reg) (imm : Imm16) : Statement (.slti rt rs imm) :=
  wordI_hits _ _ _ _ _

theorem sltiu (rt rs : Reg) (imm : Imm16) : Statement (.sltiu rt rs imm) :=
  wordI_hits _ _ _ _ _

theorem andi (rt rs : Reg) (imm : Imm16) : Statement (.andi rt rs imm) :=
  wordI_hits _ _ _ _ _

theorem ori (rt rs : Reg) (imm : Imm16) : Statement (.ori rt rs imm) :=
  wordI_hits _ _ _ _ _

theorem lui (rt : Reg) (imm : Imm16) : Statement (.lui rt imm) :=
  wordI_hits _ _ _ _ _

theorem lw (rt rs : Reg) (imm : Imm16) : Statement (.lw rt rs imm) :=
  wordI_hits _ _ _ _ _

theorem lbu (rt rs : Reg) (imm : Imm16) : Statement (.lbu rt rs imm) :=
  wordI_hits _ _ _ _ _

theorem lhu (rt rs : Reg) (imm : Imm16) : Statement (.lhu rt rs imm) :=
  wordI_hits _ _ _ _ _

theorem sb (rt rs : Reg) (imm : Imm16) : Statement (.sb rt rs imm) :=
  wordI_hits _ _ _ _ _

theorem sh (rt rs : Reg) (imm : Imm16) : Statement (.sh rt rs imm) :=
  wordI_hits _ _ _ _ _

theorem sw (rt rs : Reg) (imm : Imm16) : Statement (.sw rt rs imm) :=
  wordI_hits _ _ _ _ _

theorem j (target : Target26) : Statement (.j target) :=
  wordJ_hits _ _ _

theorem jal (target : Target26) : Statement (.jal target) :=
  wordJ_hits _ _ _

theorem halt : Statement .halt := by unfold Statement; decide

end Laws.RowHit

end Sys2Proof
end

