-- ==== Sys2Proof/Machine/Assembler.lean ====
section
/-! DEFINITION. The assembler syntax of 30_encoding.md rule R70, the byte operand of j and jal, and
the register names of 10_state.md rule R23. None of it has an architectural effect. -/

namespace Sys2Proof.Machine

/-- A register as the assembler writes it, `r0` to `r31` (R23, R70). -/
def regName (r : Reg) : String := "r" ++ toString r.val

/-- The conventional MIPS names of R23, in the order of the indices. Display only (G4). -/
def conventionalNames : List String :=
  ["zero", "at", "v0", "v1", "a0", "a1", "a2", "a3", "t0", "t1", "t2", "t3", "t4", "t5", "t6",
    "t7"] ++
  ["s0", "s1", "s2", "s3", "s4", "s5", "s6", "s7", "t8", "t9", "k0", "k1", "gp", "sp", "fp", "ra"]

/-- The encoded target field of `j addr` or `jal addr` at `pcInc`: `addr[27:2]`, where the operand
can be encoded (R70). -/
def jumpField (pcInc addr : Word) : Option Target26 :=
  if jumpOperandOk pcInc addr then some (addr.extractLsb' 2 26) else none

/-- A mnemonic and its operands, separated as R70 writes them. -/
def asmLine (mnemonic : String) (operands : List String) : String :=
  mnemonic ++ " " ++ String.intercalate ", " operands

/-- An immediate written signed (R70). -/
def asmImm (imm : Imm16) : String := toString imm.toInt

/-- A base and displacement operand, `imm(rs)` (R70). -/
def asmMem (rs : Reg) (imm : Imm16) : String := asmImm imm ++ "(" ++ regName rs ++ ")"

/-- An instruction in the syntax of R70, with the pseudo-instruction `halt` of R71. A jump's operand
is its byte target, computed from the target field and `pcInc`. -/
def asm (pcInc : Word) : Instr → String
  | .sll rd rt n => asmLine "sll" [regName rd, regName rt, toString n]
  | .srl rd rt n => asmLine "srl" [regName rd, regName rt, toString n]
  | .jr rs => asmLine "jr" [regName rs]
  | .add rd rs rt => asmLine "add" [regName rd, regName rs, regName rt]
  | .addu rd rs rt => asmLine "addu" [regName rd, regName rs, regName rt]
  | .sub rd rs rt => asmLine "sub" [regName rd, regName rs, regName rt]
  | .subu rd rs rt => asmLine "subu" [regName rd, regName rs, regName rt]
  | .and rd rs rt => asmLine "and" [regName rd, regName rs, regName rt]
  | .or rd rs rt => asmLine "or" [regName rd, regName rs, regName rt]
  | .nor rd rs rt => asmLine "nor" [regName rd, regName rs, regName rt]
  | .slt rd rs rt => asmLine "slt" [regName rd, regName rs, regName rt]
  | .sltu rd rs rt => asmLine "sltu" [regName rd, regName rs, regName rt]
  | .beq rs rt imm => asmLine "beq" [regName rs, regName rt, asmImm imm]
  | .bne rs rt imm => asmLine "bne" [regName rs, regName rt, asmImm imm]
  | .blez rs imm => asmLine "blez" [regName rs, asmImm imm]
  | .bgtz rs imm => asmLine "bgtz" [regName rs, asmImm imm]
  | .addi rt rs imm => asmLine "addi" [regName rt, regName rs, asmImm imm]
  | .addiu rt rs imm => asmLine "addiu" [regName rt, regName rs, asmImm imm]
  | .slti rt rs imm => asmLine "slti" [regName rt, regName rs, asmImm imm]
  | .sltiu rt rs imm => asmLine "sltiu" [regName rt, regName rs, asmImm imm]
  | .andi rt rs imm => asmLine "andi" [regName rt, regName rs, asmImm imm]
  | .ori rt rs imm => asmLine "ori" [regName rt, regName rs, asmImm imm]
  | .lui rt imm => asmLine "lui" [regName rt, asmImm imm]
  | .lw rt rs imm => asmLine "lw" [regName rt, asmMem rs imm]
  | .lbu rt rs imm => asmLine "lbu" [regName rt, asmMem rs imm]
  | .lhu rt rs imm => asmLine "lhu" [regName rt, asmMem rs imm]
  | .sb rt rs imm => asmLine "sb" [regName rt, asmMem rs imm]
  | .sh rt rs imm => asmLine "sh" [regName rt, asmMem rs imm]
  | .sw rt rs imm => asmLine "sw" [regName rt, asmMem rs imm]
  | .j t => asmLine "j" [toString ((pcInc.extractLsb' 28 4 ++ t ++ 0#2 : Word).toNat)]
  | .jal t => asmLine "jal" [toString ((pcInc.extractLsb' 28 4 ++ t ++ 0#2 : Word).toNat)]
  | .halt => "halt"

end Sys2Proof.Machine
end

