-- ==== Sys2Proof/Tests/Slice0.lean ====
section
/-! SUPPORT. Tests on small states, and a witness for the hypotheses of every obligation. Expected
values come from spec/95_test_vectors.md; the name in a docstring (A2, M10, ...) is the vector's. -/

namespace Sys2Proof.Tests

open Sys2Proof.Machine

/-! ### Helpers -/

/-- The reset state with some registers set. -/
def st (l : List (Reg × Word)) : State := l.foldl (fun s p => s.setReg p.1 p.2) State.reset

/-- A launch of the image that holds these words, with the conventions of 95_test_vectors.md. -/
def img (ws : List Word) : State :=
  State.launch (.sized 0x1000) [] (ws.flatMap bytesOfWord)

/-- A state whose memory holds `v` at 0x80, with some registers set. -/
def mem80 (v : Word) (l : List (Reg × Word)) : State :=
  { st l with mem := Memory.write [] 0x80 .word v }

/-- `s` with a redirect to `t` pending. -/
def pending (t : Word) (s : State) : State := { s with pendValid := true, pendTarget := t }

/-- A next state's view, if there is one. -/
def view {α : Type} (f : State → α) : Result → Option α
  | .next s => some (f s)
  | .fault _ => none
  | .refused _ => none

/-- A register's value and the termination state after an instruction. -/
def val (r : Reg) (x : Result) : Option (Word × Term) := view (fun s => (s.reg r, s.term)) x

/-- The cause and the termination state. -/
def cause (x : Result) : Option (Cause × Term) := view (fun s => (s.cause, s.term)) x

/-- The pending redirect. -/
def pend (x : Result) : Option (Bool × Word) := view (fun s => (s.pendValid, s.pendTarget)) x

/-- The refusal, if there is one. -/
def refusal : Result → Option Refusal
  | .next _ => none
  | .fault _ => none
  | .refused r => some r

/-- PC, pend_valid and termination state. -/
def flow (x : Result) : Option (Word × Bool × Term) :=
  view (fun s => (s.pc, s.pendValid, s.term)) x

/-- The word at an address. -/
def wordAt (a : Word) (x : Result) : Option Word := view (fun s => s.mem.read a .word) x

/-! ### WellFormed: ill-formed terms are refused -/

theorem test_wf_refuses_shift_counts_above_31 :
    (Instr.sll 1 2 32).wf = false ∧ (Instr.srl 1 2 32).wf = false ∧
      (Instr.sll 1 2 31).wf = true ∧ (Instr.srl 1 2 31).wf = true := by decide

/-- R70: a jump operand that is no multiple of 4, or in another 256 MiB region, is refused. -/
theorem test_jump_operand_check :
    jumpOperandOk 4 0x12 = false ∧ jumpOperandOk 4 0x10000000 = false ∧
      jumpOperandOk 4 0x0FFFFFFC = true ∧ jumpField 4 0x10 = some 4 ∧ jumpField 4 0x11 = none := by
  decide

/-- R184: a CTI in a delay slot is refused (P4c), the halt sentinel is not. -/
theorem test_placement_check :
    placementOk [.beq 0 0 3, .j 0x10, .halt] = false ∧ placementOk [.beq 0 0 3, .halt] = true := by
  decide

/-! ### Decoding: the words of 95_test_vectors.md, one or more of every constructor -/

/-- E3, E4 and E5; E4 has an ignored rs of 5. -/
theorem test_decode_shifts :
    decode 0x00000000 = .ok (.sll 0 0 0) ∧ decode 0x00A14100 = .ok (.sll 8 1 4) ∧
      decode 0x00014102 = .ok (.srl 8 1 4) := by decide

/-- E1 and E2 (an ignored shamt of 2), and the R-type encodings. -/
theorem test_decode_register_arithmetic :
    decode 0x00221820 = .ok (.add 3 1 2) ∧ decode 0x002218A0 = .ok (.add 3 1 2) ∧
      decode 0x00221821 = .ok (.addu 3 1 2) ∧ decode 0x00221822 = .ok (.sub 3 1 2) ∧
      decode 0x00221823 = .ok (.subu 3 1 2) := by decide

theorem test_decode_register_logical :
    decode 0x00221824 = .ok (.and 3 1 2) ∧ decode 0x00221825 = .ok (.or 3 1 2) ∧
      decode 0x00221827 = .ok (.nor 3 1 2) ∧ decode 0x0022182A = .ok (.slt 3 1 2) ∧
      decode 0x0022182B = .ok (.sltu 3 1 2) := by decide

/-- E7, and the I-type encodings. -/
theorem test_decode_immediate_arithmetic :
    decode 0x2021FFFF = .ok (.addi 1 1 0xFFFF) ∧ decode 0x24220005 = .ok (.addiu 2 1 5) ∧
      decode 0x28220005 = .ok (.slti 2 1 5) ∧ decode 0x2C220005 = .ok (.sltiu 2 1 5) := by decide

/-- E11 (an ignored rs of 1), and the I-type encodings. -/
theorem test_decode_immediate_logical :
    decode 0x30220005 = .ok (.andi 2 1 5) ∧ decode 0x34220005 = .ok (.ori 2 1 5) ∧
      decode 0x3C020005 = .ok (.lui 2 5) ∧ decode 0x3C220005 = .ok (.lui 2 5) := by decide

/-- E10, and the load and store encodings. -/
theorem test_decode_loads_and_stores :
    decode 0x8C040100 = .ok (.lw 4 0 0x100) ∧ decode 0x90220004 = .ok (.lbu 2 1 4) ∧
      decode 0x94220004 = .ok (.lhu 2 1 4) ∧ decode 0xA0220004 = .ok (.sb 2 1 4) ∧
      decode 0xA4220004 = .ok (.sh 2 1 4) ∧ decode 0xAC220004 = .ok (.sw 2 1 4) := by decide

/-- E8 and E12 (an ignored rt of 3). -/
theorem test_decode_branches :
    decode 0x10220002 = .ok (.beq 1 2 2) ∧ decode 0x1420FFFD = .ok (.bne 1 0 0xFFFD) ∧
      decode 0x18230002 = .ok (.blez 1 2) ∧ decode 0x1C200002 = .ok (.bgtz 1 2) := by decide

/-- E6, E9 and E13. -/
theorem test_decode_jumps_and_halt :
    decode 0x08000004 = .ok (.j 4) ∧ decode 0x0C000004 = .ok (.jal 4) ∧
      decode 0x03E00008 = .ok (.jr 31) ∧ decode 0x00200008 = .ok (.jr 1) ∧
      decode 0xFEEDFEED = .ok .halt := by decide

/-- E14, E15, E19 and E20; 0xFEEDFEEC differs from the sentinel in one bit. -/
theorem test_decode_refuses_opcodes :
    decode 0xFC000000 = .error (.illegalOpcode 0xFC000000) ∧
      decode 0x04000000 = .error (.illegalOpcode 0x04000000) ∧
      decode 0x38000000 = .error (.illegalOpcode 0x38000000) ∧
      decode 0x80000000 = .error (.illegalOpcode 0x80000000) ∧
      decode 0xFEEDFEEC = .error (.illegalOpcode 0xFEEDFEEC) := by decide

/-- E16, E17 and E18. -/
theorem test_decode_refuses_function_codes :
    decode 0x00000001 = .error (.illegalFunct 0x00000001) ∧
      decode 0x00000003 = .error (.illegalFunct 0x00000003) ∧
      decode 0x00000009 = .error (.illegalFunct 0x00000009) := by decide

/-- Bytes are read most significant first (R41), and what follows the word is left. -/
theorem test_decode_bytes :
    decodeBytes [0x00, 0x22, 0x18, 0x20, 0xAB] = .ok (.add 3 1 2, [0xAB]) ∧
      decodeBytes [0x00, 0x22, 0x18] = .error .truncated ∧
      decodeTableWord 32 0x00221820 = some (.add 3 1 2) ∧
      decodeTableWord 32 0xFC000000 = none := by decide

/-- The words the encoder writes are those of 95_test_vectors.md. -/
theorem test_encode :
    encode (.srl 8 1 4) = 0x00014102 ∧ encode (.subu 3 1 2) = 0x00221823 ∧
      encode (.sh 2 1 4) = 0xA4220004 ∧ encode (.bgtz 1 2) = 0x1C200002 ∧
      encode (.jal 4) = 0x0C000004 ∧ encode .halt = 0xFEEDFEED := by decide

/-- R71: nop and the constant pair (S6). -/
theorem test_pseudo_instructions :
    encode Instr.nop = 0 ∧
      (Instr.loadConst 1 0xDEADBEEF).map encode = [0x3C01DEAD, 0x3421BEEF] := by decide

/-- R70: the assembler forms of the programs. -/
theorem test_assembler :
    asm 4 (.add 3 1 2) = "add r3, r1, r2" ∧ asm 4 (.lw 4 0 0x100) = "lw r4, 256(r0)" ∧
      asm 4 (.addi 1 1 0xFFFF) = "addi r1, r1, -1" ∧ asm 4 (.jal 4) = "jal 16" := by decide

/-! ### Values -/

/-- S1 and S2. -/
theorem test_extension :
    zext32 (0x7FFF : Imm16) = 0x7FFF ∧ sext32 0x7FFF = 0x7FFF ∧ sext32 0x8000 = 0xFFFF8000 ∧
      zext32 (0xFFFF : Imm16) = 0xFFFF ∧ bdisp 0x7FFF = 0x0001FFFC ∧ bdisp 0x8000 = 0xFFFE0000 ∧
      bdisp 0xFFFD = 0xFFFFFFF4 := by decide

/-- S3; A13 and A14, where the negated-add check differs. -/
theorem test_overflow_checkers :
    ovfAdd 0x80000000 0xFFFFFFFF 0x7FFFFFFF = true ∧
      ovfAdd 0xFFFFFFFF 0x00000001 0x00000000 = false ∧
      ovfAdd 0x7FFFFFFF 0x80000000 0xFFFFFFFF = false ∧
      ovfSub 0x00000000 0x80000000 0x80000000 = true ∧
      ovfSub 0xFFFFFFFF 0x80000000 0x7FFFFFFF = false := by decide

/-! ### Register-register instructions -/

/-- A1, A2 and A4. -/
theorem test_add :
    val 3 (exec (.add 3 1 2) (st [(1, 5), (2, 10)])) = some (15, .running) ∧
      val 3 (exec (.add 3 1 2) (st [(1, 0x7FFFFFFF), (2, 1)])) =
        some (0x80000000, .haltedError) ∧
      val 3 (exec (.add 3 1 2) (st [(1, 0xFFFFFFFF), (2, 1)])) = some (0, .running) := by decide

/-- A19: the overflow of an add into r0 leaves the sum in x[0]. -/
theorem test_add_into_register_0 :
    val 0 (exec (.add 0 1 1) (st [(1, 0x7FFFFFFF)])) = some (0xFFFFFFFE, .haltedError) := by decide

/-- A8 and A9, with a source that is also the destination. -/
theorem test_addu :
    val 1 (exec (.addu 1 1 2) (st [(1, 0x7FFFFFFF), (2, 1)])) = some (0x80000000, .running) ∧
      val 3 (exec (.addu 3 1 1) (st [(1, 0xFFFFFFFF)])) = some (0xFFFFFFFE, .running) := by decide

/-- A10, A11 and A13. -/
theorem test_sub :
    val 3 (exec (.sub 3 1 2) (st [(2, 1)])) = some (0xFFFFFFFF, .running) ∧
      val 3 (exec (.sub 3 1 2) (st [(1, 0x80000000), (2, 1)])) =
        some (0x7FFFFFFF, .haltedError) ∧
      val 3 (exec (.sub 3 1 2) (st [(2, 0x80000000)])) = some (0x80000000, .haltedError) := by decide

/-- A17 and A18. -/
theorem test_subu :
    val 3 (exec (.subu 3 1 2) (st [(1, 0x80000000), (2, 1)])) = some (0x7FFFFFFF, .running) ∧
      val 3 (exec (.subu 3 1 2) (st [(1, 3), (2, 10)])) = some (0xFFFFFFF9, .running) := by decide

/-- L1. -/
theorem test_and :
    val 3 (exec (.and 3 1 2) (st [(1, 0xF0F0F0F0), (2, 0xFF00FF00)])) =
      some (0xF000F000, .running) := by decide

/-- L2 and L3: inclusive (C2). -/
theorem test_or :
    val 3 (exec (.or 3 1 2) (st [(1, 0xF0F0F0F0), (2, 0xFF00FF00)])) =
        some (0xFFF0FFF0, .running) ∧
      val 3 (exec (.or 3 1 2) (st [(1, 3), (2, 1)])) = some (3, .running) := by decide

/-- L4 and L5. -/
theorem test_nor :
    val 3 (exec (.nor 3 1 2) (st [(1, 3), (2, 1)])) = some (0xFFFFFFFC, .running) ∧
      val 3 (exec (.nor 3 1 2) (st [(1, 0xF0F0F0F0), (2, 0xFF00FF00)])) =
        some (0x000F000F, .running) := by decide

/-- T1 and T5. -/
theorem test_slt :
    val 3 (exec (.slt 3 1 2) (st [(1, 0xFFFFFFFF)])) = some (1, .running) ∧
      val 3 (exec (.slt 3 1 2) (st [(2, 0xFFFFFFFF)])) = some (0, .running) := by decide

/-- T1 and T5. -/
theorem test_sltu :
    val 3 (exec (.sltu 3 1 2) (st [(1, 0xFFFFFFFF)])) = some (0, .running) ∧
      val 3 (exec (.sltu 3 1 2) (st [(2, 0xFFFFFFFF)])) = some (1, .running) := by decide

/-- H1, H2 and H4. -/
theorem test_sll :
    val 3 (exec (.sll 3 1 31) (st [(1, 1)])) = some (0x80000000, .running) ∧
      val 3 (exec (.sll 3 1 0) (st [(1, 0x12345678)])) = some (0x12345678, .running) ∧
      val 3 (exec (.sll 3 1 1) (st [(1, 0x80000001)])) = some (2, .running) := by decide

/-- H5 and H6: zero filling. -/
theorem test_srl :
    val 3 (exec (.srl 3 1 31) (st [(1, 0x80000000)])) = some (1, .running) ∧
      val 3 (exec (.srl 3 1 4) (st [(1, 0xFFFFFFFF)])) = some (0x0FFFFFFF, .running) := by decide

/-! ### Register-immediate instructions -/

/-- I1, I2 and I3. -/
theorem test_addi :
    val 2 (exec (.addi 2 1 1) (st [(1, 0x7FFFFFFF)])) = some (0x80000000, .haltedError) ∧
      val 2 (exec (.addi 2 1 0xFFFF) (st [(1, 5)])) = some (4, .running) ∧
      val 2 (exec (.addi 2 1 0x8000) (st [(1, 0x80000000)])) =
        some (0x7FFF8000, .haltedError) := by decide

/-- I6: the check does not look at the old x[rt] (C3). -/
theorem test_addi_ignores_old_destination :
    val 2 (exec (.addi 2 0 1) (st [(2, 0x7FFFFFFF)])) = some (1, .running) := by decide

/-- I8 and I9. -/
theorem test_addiu :
    val 2 (exec (.addiu 2 1 1) (st [(1, 0x7FFFFFFF)])) = some (0x80000000, .running) ∧
      val 2 (exec (.addiu 2 1 0xFFFF) (st [])) = some (0xFFFFFFFF, .running) := by decide

/-- I10: zero-extended. -/
theorem test_andi :
    val 2 (exec (.andi 2 1 0x8000) (st [(1, 0xFFFFFFFF)])) = some (0x00008000, .running) := by decide

/-- I12 and I15: zero-extended and inclusive. -/
theorem test_ori :
    val 2 (exec (.ori 2 1 0xFFFF) (st [])) = some (0x0000FFFF, .running) ∧
      val 2 (exec (.ori 2 1 0x00FF) (st [(1, 0x0000FFFF)])) = some (0x0000FFFF, .running) := by decide

/-- T6, T7 and T8. -/
theorem test_slti :
    val 2 (exec (.slti 2 1 0xFFFF) (st [(1, 0xFFFFFFFE)])) = some (1, .running) ∧
      val 2 (exec (.slti 2 1 0x8000) (st [])) = some (0, .running) ∧
      val 2 (exec (.slti 2 1 0x8000) (st [(1, 0x80000000)])) = some (1, .running) := by decide

/-- T10, T11 and T12: sign-extended, then compared unsigned. -/
theorem test_sltiu :
    val 2 (exec (.sltiu 2 1 0xFFFF) (st [])) = some (1, .running) ∧
      val 2 (exec (.sltiu 2 1 0xFFFF) (st [(1, 0xFFFFFFFF)])) = some (0, .running) ∧
      val 2 (exec (.sltiu 2 1 0x8000) (st [(1, 0x8000)])) = some (1, .running) := by decide

/-- I16 and I18. -/
theorem test_lui :
    val 2 (exec (.lui 2 0x8000) (st [])) = some (0x80000000, .running) ∧
      val 2 (exec (.lui 2 0x7FFF) (st [])) = some (0x7FFF0000, .running) := by decide

/-! ### Loads and stores -/

/-- M1, M9 (a negative offset) and M14 (the last word). -/
theorem test_lw :
    val 2 (exec (.lw 2 0 0x80) (mem80 0x12345678 [])) = some (0x12345678, .running) ∧
      val 2 (exec (.lw 2 1 0xFFFC) (mem80 0x12345678 [(1, 0x84)])) =
        some (0x12345678, .running) ∧
      val 2 (exec (.lw 2 0 0xFFC) (mem80 0x12345678 [(2, 7)])) = some (0, .running) := by decide

/-- M10: misaligned, and x[rt] is unchanged. -/
theorem test_lw_misaligned :
    val 2 (exec (.lw 2 0 0x82) (mem80 0x12345678 [(2, 7)])) = some (7, .haltedError) ∧
      cause (exec (.lw 2 0 0x82) (mem80 0x12345678 [])) =
        some (.memoryAccessFault, .haltedError) := by decide

/-- M2, M7 and M12. -/
theorem test_lbu :
    val 2 (exec (.lbu 2 0 0x80) (mem80 0x12345678 [])) = some (0x12, .running) ∧
      val 2 (exec (.lbu 2 0 0x83) (mem80 0x12345678 [])) = some (0x78, .running) ∧
      val 2 (exec (.lbu 2 0 0x81) (mem80 0x12FF5678 [])) = some (0xFF, .running) := by decide

/-- M3 and M8. -/
theorem test_lhu :
    val 2 (exec (.lhu 2 0 0x80) (mem80 0x12345678 [])) = some (0x1234, .running) ∧
      val 2 (exec (.lhu 2 0 0x82) (mem80 0x12348001 [])) = some (0x8001, .running) := by decide

/-- M11. -/
theorem test_lhu_misaligned :
    cause (exec (.lhu 2 0 0x81) (mem80 0x12345678 [])) =
      some (.memoryAccessFault, .haltedError) := by decide

/-- M4. -/
theorem test_sb :
    wordAt 0x80 (exec (.sb 2 0 0x81) (mem80 0x12345678 [(2, 0xFFFFFFFF)])) =
      some 0x12FF5678 := by decide

/-- M5. -/
theorem test_sh :
    wordAt 0x80 (exec (.sh 2 0 0x82) (mem80 0x12345678 [(2, 0xAABBCCDD)])) =
      some 0x1234CCDD := by decide

/-- M15: 0xFFE is admitted and 0xFFF is not. -/
theorem test_sh_at_the_top :
    cause (exec (.sh 2 0 0xFFE) (st [])) = some (.none, .running) ∧
      cause (exec (.sh 2 0 0xFFF) (st [])) = some (.memoryAccessFault, .haltedError) := by decide

/-- M6: byte by byte, and the memory stays canonical where a stored byte is 0. -/
theorem test_sw :
    view (·.mem) (exec (.sw 2 0 0x80) (st [(2, 0xCAFEF00D)])) =
        some [(0x80, 0xCA), (0x81, 0xFE), (0x82, 0xF0), (0x83, 0x0D)] ∧
      view (·.mem) (exec (.sw 2 0 0x80) (mem80 0xCAFEF00D [(2, 6)])) = some [(0x83, 6)] := by decide

/-- M13: past MEM_SIZE no byte is written (D12). -/
theorem test_sw_past_the_end :
    view (fun s => (s.mem, s.cause)) (exec (.sw 2 0 0x1000) (st [(2, 0xCAFEF00D)])) =
      some ([], .memoryAccessFault) := by decide

/-! ### Control transfer. `pc` is `pc_inc`, the branch's address + 4. -/

/-- B1 with B8, and B9. -/
theorem test_beq :
    pend (exec (.beq 1 2 2) { st [(1, 5), (2, 5)] with pc := 4 }) = some (true, 0xC) ∧
      pend (exec (.beq 1 2 2) { st [(1, 5), (2, 6)] with pc := 4 }) = some (false, 0) := by decide

/-- B2 with B10, and B11. -/
theorem test_bne :
    pend (exec (.bne 1 2 0xFFFD) { st [(1, 0x80000000)] with pc := 0x14 }) = some (true, 8) ∧
      pend (exec (.bne 1 2 0xFFFD) { st [(1, 7), (2, 7)] with pc := 0x14 }) = some (false, 0) := by
  decide

/-- B12, B14, B15. -/
theorem test_blez :
    pend (exec (.blez 1 0xFFFF) { st [] with pc := 0x104 }) = some (true, 0x100) ∧
      pend (exec (.blez 1 0xFFFF) { st [(1, 0x80000000)] with pc := 0x104 }) =
        some (true, 0x100) ∧
      pend (exec (.blez 1 0xFFFF) { st [(1, 1)] with pc := 0x104 }) = some (false, 0) := by decide

/-- B17 with B5, B19 and B20. -/
theorem test_bgtz :
    pend (exec (.bgtz 1 0x8000) { st [(1, 1)] with pc := 4 }) = some (true, 0xFFFE0004) ∧
      pend (exec (.bgtz 1 0x8000) { st [] with pc := 4 }) = some (false, 0) ∧
      pend (exec (.bgtz 1 0x8000) { st [(1, 0x80000000)] with pc := 4 }) = some (false, 0) := by
  decide

/-- J6 and J7. -/
theorem test_jr :
    pend (exec (.jr 1) (st [(1, 0x40)])) = some (true, 0x40) ∧
      pend (exec (.jr 1) (st [(1, 0x13)])) = some (true, 0x13) := by decide

/-- J1, J2 and J3. -/
theorem test_j :
    pend (exec (.j 1) { st [] with pc := 0x10000004 }) = some (true, 0x10000004) ∧
      pend (exec (.j 0) { st [] with pc := 0x10000000 }) = some (true, 0x10000000) ∧
      pend (exec (.j 0x3FFFFFF) { st [] with pc := 0 }) = some (true, 0x0FFFFFFC) := by decide

/-- J5. -/
theorem test_jal :
    pend (exec (.jal 4) { st [] with pc := 4 }) = some (true, 0x10) ∧
      val 31 (exec (.jal 4) { st [] with pc := 4 }) = some (4, .running) := by decide

/-- Q4: refused, taken or not. -/
theorem test_cti_in_delay_slot :
    refusal (exec (.beq 0 1 2) (pending 0x40 (st [(1, 1)]))) = some .ctiInDelaySlot ∧
      refusal (exec (.j 0x10) (pending 0x40 (st []))) = some .ctiInDelaySlot := by decide

/-! ### Steps -/

/-- The first step after reset of a placed word (S7). -/
theorem test_step_from_reset :
    view (fun s => (s.pc, s.reg 1)) (step (State.reset.withFetchWord 32 0x20010005)) =
      some (4, 5) := by decide

/-- S4: phase 2 zeroes what an earlier instruction wrote to x[0]. -/
theorem test_step_zeroes_register_0 :
    view (fun s => (s.reg 0, s.reg 1)) (step { img [0x00000820] with
      regs := Vector.replicate 32 5 }) = some (0, 0) := by decide

/-- Q1, Q2 and Q3. -/
theorem test_step_sequencer :
    flow (step (img [0x00000000])) = some (4, false, .running) ∧
      flow (step (img [0x08000004])) = some (4, true, .running) ∧
      flow (step (pending 0x40 (img [0x00000000]))) = some (0x40, false, .running) := by decide

/-- Q5 and Q6: the pending redirect is not applied. -/
theorem test_step_sequencer_at_the_end :
    flow (step (pending 0x40 (img [0xFC000000]))) = some (4, true, .haltedError) ∧
      flow (step (pending 0x40 (img [0xFEEDFEED]))) = some (4, true, .haltedClean) := by decide

/-- F2 and F3, and a step after the end. -/
theorem test_step_fetch :
    flow (step { st [] with pc := 0x1000 }) = some (0x1000, false, .haltedError) ∧
      refusal (step { st [] with pc := 0x13 }) = some .misalignedFetch ∧
      view (·.pc) (step { st [] with term := .haltedClean }) = none := by decide

/-- F4 with its diagnostic, and F5. -/
theorem test_step_errors :
    view (fun s => (s.pc, s.diags)) (step (img [0xFC000000])) =
        some (4, [.illegalInstruction 0xFC000000]) ∧
      view (fun s => (s.reg 2, s.diags)) (step ((img [0x00211020]).setReg 1 0x7FFFFFFF)) =
        some (0xFFFFFFFE, [.arithmeticOverflow 0x7FFFFFFF 0x7FFFFFFF]) := by decide

/-- F1, F2: exit codes, status and the observation. -/
theorem test_outputs :
    view (fun s => (s.exitCode, s.term.status, s.cause.code)) (step (img [0xFEEDFEED])) =
        some (some 0, 1, 0) ∧
      view (fun s => (s.exitCode, s.term.status, s.cause.code)) (step { st [] with pc := 0x1000 }) =
        some (some 127, 2, 3) ∧
      State.reset.observe = none := by decide

/-! ### Witnesses: a state and operands that meet the hypotheses of each obligation. An obligation
that is not named here has no hypothesis. -/

/-- The no-overflow and the overflow case of add, addi and sub, at the boundary on both sides. -/
theorem witness_overflow_boundaries :
    (∀ a b : Word, (a, b) = (0x7FFFFFFE, 1) → -2 ^ 31 ≤ a.toInt + b.toInt ∧
      a.toInt + b.toInt < 2 ^ 31) ∧
    ¬ ((0x7FFFFFFF : Word).toInt + (1 : Word).toInt < 2 ^ 31) ∧
    ¬ (-2 ^ 31 ≤ (0x80000000 : Word).toInt + (0xFFFF : Imm16).toInt) ∧
    -2 ^ 31 ≤ (0x80000001 : Word).toInt - (1 : Word).toInt ∧
    ¬ (-2 ^ 31 ≤ (0x80000000 : Word).toInt - (1 : Word).toInt) := by
  refine ⟨?_, by decide, by decide, by decide, by decide⟩
  rintro a b ⟨⟩
  decide

/-- LwAndLbuReadMemory: admitted and not, at the last word and byte and just past them. -/
theorem witness_LwAndLbuReadMemory :
    State.reset.admission = .sized 0x1000 ∧
    State.reset.admission.admits (effAddr (State.reset.reg 0) 0xFFC) .word = true ∧
    State.reset.admission.admits (effAddr (State.reset.reg 0) 0xFFE) .word = false ∧
    State.reset.admission.admits (effAddr (State.reset.reg 0) 0x1000) .word = false ∧
    State.reset.admission.admits (effAddr (State.reset.reg 0) 0xFFF) .byte = true ∧
    State.reset.admission.admits (effAddr (State.reset.reg 0) 0x1000) .byte = false := by decide

/-- LhuReadsABigEndianHalfword: admitted, misaligned, and past MEM_SIZE. -/
theorem witness_LhuReadsABigEndianHalfword :
    State.reset.admission = .sized 0x1000 ∧
    State.reset.admission.admits (effAddr (State.reset.reg 0) 0xFFE) .half = true ∧
    State.reset.admission.admits (effAddr (State.reset.reg 0) 0xFFF) .half = false ∧
    State.reset.admission.admits (effAddr (State.reset.reg 0) 0x1000) .half = false := by decide

/-- SbStoresTheLowByte and SwAndShStoreBigEndian, on a memory that is not empty. -/
theorem witness_stores :
    (mem80 0x12345678 []).mem.wf = true ∧
    (mem80 0x12345678 []).admission.admits (effAddr ((mem80 0 []).reg 0) 0xFFF) .byte = true ∧
    (mem80 0x12345678 []).admission.admits (effAddr ((mem80 0 []).reg 0) 0x1000) .byte = false ∧
    (mem80 0x12345678 []).admission.admits (effAddr ((mem80 0 []).reg 0) 0xFFC) .word = true ∧
    (mem80 0x12345678 []).admission.admits (effAddr ((mem80 0 []).reg 0) 0xFFD) .word = false ∧
    (mem80 0x12345678 []).admission.admits (effAddr ((mem80 0 []).reg 0) 0xFFE) .half = true ∧
    (mem80 0x12345678 []).admission.admits (effAddr ((mem80 0 []).reg 0) 0xFFF) .half = false := by
  decide

/-- The loads and stores under an admission that is a list: one misaligned word is admitted. -/
theorem witness_listed_admission :
    (Admission.listed [(0x81, .word)]).admits 0x81 .word = true ∧
    (Admission.listed [(0x81, .word)]).admits 0x80 .word = false := by decide

/-- ReadAfterWriteReturnsTheValue, for each width. -/
theorem witness_ReadAfterWriteReturnsTheValue :
    (mem80 0x12345678 []).mem.wf = true ∧
    (mem80 0x12345678 []).admission.admits 0x80 .word = true ∧
    (mem80 0x12345678 []).admission.admits 0x82 .half = true ∧
    (mem80 0x12345678 []).admission.admits 0x83 .byte = true := by decide

/-- MixedWidthAccessIsBigEndian, on a memory that is not empty, and an address just outside a
halfword on each side. -/
theorem witness_MixedWidthAccessIsBigEndian :
    Memory.wf (Memory.write [] 0x80 .word 0x12345678) = true ∧
    Memory.write [] 0x80 .word 0x12345678 ≠ [] ∧
    (∀ j, j < Width.half.bytes → (0x84 : Word) ≠ 0x82 + BitVec.ofNat 32 j) ∧
    (∀ j, j < Width.half.bytes → (0x81 : Word) ≠ 0x82 + BitVec.ofNat 32 j) := by decide

/-- TheNextFetchSeesAStore: a sw at 0 onto the word at 4, after P4g. -/
theorem witness_TheNextFetchSeesAStore :
    let s := (img [0xAC010004]).setReg 1 0x20020009
    s.fetchable ∧ s.mem.wf = true ∧ decode s.wordAtPc = .ok (.sw 1 0 4) ∧
      effAddr ((advance s).reg 0) 4 = 4 ∧ s.admission.admits 4 .word = true ∧
      (if s.pendValid then s.pendTarget else s.pc + 4) = 4 ∧ Aligned4 4 := by
  decide

/-- The same in a delay slot: an sh and an sb into the word at the pending target 0x40; the byte at
0x41 and the halfword at 0x42 lie in it, the byte at 0x40 lies outside both stores. -/
theorem witness_TheNextFetchSeesAStore_in_a_delay_slot :
    let s := pending 0x40 (img [0xA4010042])
    let u := pending 0x40 (img [0xA0010041])
    s.fetchable ∧ s.mem.wf = true ∧ decode s.wordAtPc = .ok (.sh 1 0 0x42) ∧
      s.admission.admits 0x42 .half = true ∧ u.fetchable ∧ u.mem.wf = true ∧
      decode u.wordAtPc = .ok (.sb 1 0 0x41) ∧ u.admission.admits 0x41 .byte = true ∧
      (if s.pendValid then s.pendTarget else s.pc + 4) = 0x40 ∧ Aligned4 0x40 ∧
      s.admission.admits 0x40 .word = true := by decide

/-- R52: what the step of that sh leaves to be fetched. -/
theorem test_fetch_sees_a_store_in_a_delay_slot :
    view fetch (step ((pending 0x40 (img [0xA4010042])).setReg 1 0xAABBCCDD)) =
      some (.word 0x0000CCDD) := by decide

/-- JrRequestsTheRegisterTarget (a misaligned target) and JAndJalRequestTheirTarget. -/
theorem witness_jumps :
    (st [(1, 0x13)]).pendValid = false ∧ ¬ Aligned4 ((st [(1, 0x13)]).reg 1) := by decide

/-- BeqAndBneRequestTheirTarget: equal and different registers, with none pending. -/
theorem witness_BeqAndBneRequestTheirTarget :
    (st [(1, 5)]).pendValid = false ∧ (st [(1, 5)]).reg 2 = (st [(1, 5)]).reg 3 ∧
      (st [(1, 5)]).reg 1 ≠ (st [(1, 5)]).reg 2 := by decide

/-- BlezAndBgtzRequestTheirTarget: 0, the most negative value, and 1. -/
theorem witness_BlezAndBgtzRequestTheirTarget :
    (st [(1, 1), (2, 0x80000000)]).pendValid = false ∧
      ((st [(1, 1), (2, 0x80000000)]).reg 0).toInt ≤ 0 ∧
      ((st [(1, 1), (2, 0x80000000)]).reg 2).toInt ≤ 0 ∧
      0 < ((st [(1, 1), (2, 0x80000000)]).reg 1).toInt := by decide

/-- OnlyTakenTransfersRequestARedirect: a next state with no change, and one for each CTI that
requests a redirect. -/
theorem witness_OnlyTakenTransfersRequestARedirect :
    pend (exec (.add 1 2 3) (st [])) = some (false, 0) ∧
      pend (exec (.jr 1) (st [(1, 0x40)])) = some (true, 0x40) ∧
      pend (exec (.beq 0 0 1) (st [])) = some (true, 4) ∧
      pend (exec (.bne 0 1 1) (st [(1, 1)])) = some (true, 4) ∧
      pend (exec (.blez 0 1) (st [])) = some (true, 4) ∧
      pend (exec (.bgtz 1 1) (st [(1, 1)])) = some (true, 4) ∧
      pend (exec (.j 1) (st [])) = some (true, 4) ∧
      pend (exec (.jal 1) (st [])) = some (true, 4) := by decide

/-- ATransferInADelaySlotIsRefused, at the fetch (P4c). -/
theorem witness_ATransferInADelaySlotIsRefused :
    (pending 0x10 (img [0x08000010])).fetchable ∧
      decode (pending 0x10 (img [0x08000010])).wordAtPc = .ok (.j 0x10) ∧
      (Instr.j 0x10).isCti = true ∧ (pending 0x10 (img [0x08000010])).pendValid = true := by decide

/-- TheSequencerAppliesThePendingRedirect: the three cases, as the steps of
`test_step_sequencer` and of an overflow in a delay slot (P4b). -/
theorem witness_TheSequencerAppliesThePendingRedirect :
    (img [0x08000004]).fetchable ∧ decode (img [0x08000004]).wordAtPc = .ok (.j 4) ∧
      (pending 0x20 ((img [0x00211020]).setReg 1 0x7FFFFFFF)).fetchable ∧
      decode (pending 0x20 ((img [0x00211020]).setReg 1 0x7FFFFFFF)).wordAtPc =
        .ok (.add 2 1 1) ∧
      flow (step (pending 0x20 ((img [0x00211020]).setReg 1 0x7FFFFFFF))) =
        some (4, true, .haltedError) := by decide

/-- ExactlyOneDelaySlotFollowsATransfer: two steps, from a branch taken (S5a) and not taken. -/
theorem witness_ExactlyOneDelaySlotFollowsATransfer :
    (img [0x10210002, 0x20420001]).fetchable ∧
      decode (img [0x10210002, 0x20420001]).wordAtPc = .ok (.beq 1 1 2) ∧
      view (fun t => flow (step t)) (step (img [0x10210002, 0x20420001])) =
        some (some (0xC, false, .running)) ∧
      view (fun t => flow (step t)) (step (img [0x14210002, 0x20420001])) =
        some (some (8, false, .running)) := by decide

/-- OnlyJrBreaksAlignment: idle, and in a delay slot. -/
theorem witness_OnlyJrBreaksAlignment :
    (img [0x00000000]).flowAligned ∧ (pending 0x40 (img [0x00000000])).flowAligned ∧
      decode (img [0x00000000]).wordAtPc = .ok (.sll 0 0 0) ∧
      flow (step (pending 0x40 (img [0x00000000]))) = some (0x40, false, .running) := by decide

/-- AStepRunsTheDecodedInstruction: the premises, with a next state and with a refusal. -/
theorem witness_AStepRunsTheDecodedInstruction :
    let s := img [0x08000004]
    s.term = .running ∧ Aligned4 s.pc ∧ s.admission.admits s.pc .word = true ∧
      decodeBytes [s.byteAt s.pc, s.byteAt (s.pc + 1), s.byteAt (s.pc + 2), s.byteAt (s.pc + 3)] =
        .ok (.j 4, []) ∧
      pend (exec (.j 4) (advance s)) = some (true, 0x10) ∧
      refusal (exec (.j 4) (advance (pending 0x40 s))) = some .ctiInDelaySlot := by decide

/-- AFailedFetchIsRefusedOrEndsTheRun: F3 and F2. -/
theorem witness_AFailedFetchIsRefusedOrEndsTheRun :
    ¬ Aligned4 ({ st [] with pc := 0x13 } : State).pc ∧
      Aligned4 ({ st [] with pc := 0x1000 } : State).pc ∧
      State.reset.admission.admits 0x1000 .word = false ∧
      State.reset.admission.admits 0xFFC .word = true ∧ (st []).term = .running := by decide

/-- TheSentinelHaltsCleanly, with none and with one redirect pending. -/
theorem witness_TheSentinelHaltsCleanly :
    (img [0xFEEDFEED]).fetchable ∧ (img [0xFEEDFEED]).wordAtPc = 0xFEEDFEED ∧
      (pending 0x40 (img [0xFEEDFEED])).fetchable ∧
      (pending 0x40 (img [0xFEEDFEED])).wordAtPc = 0xFEEDFEED := by decide

/-- AnIllegalWordEndsTheRun, for each kind of illegal word (S9, E16). -/
theorem witness_AnIllegalWordEndsTheRun :
    (img [0xFC000000]).fetchable ∧
      decode (img [0xFC000000]).wordAtPc = .error (.illegalOpcode 0xFC000000) ∧
      (img [1]).fetchable ∧ decode (img [1]).wordAtPc = .error (.illegalFunct 1) := by decide

/-- NoStepIsTakenOnceEnded: a step that is answered, and a state that has ended. -/
theorem witness_NoStepIsTakenOnceEnded :
    flow (step (img [0x00000000])) = some (4, false, .running) ∧
      ({ st [] with term := .haltedError } : State).ended := by decide

/-- AnErrorHaltEmitsExactlyOneDiagnostic and EachCauseHasItsOwnConditions: a step into HaltedError
for each cause (a fetch, a load, an overflow, an illegal word), and one that stays Running. -/
theorem witness_errors :
    cause (step { st [] with pc := 0x1000 }) = some (.memoryAccessFault, .haltedError) ∧
      cause (step (img [0x8C010002])) = some (.memoryAccessFault, .haltedError) ∧
      cause (step ((img [0x00211020]).setReg 1 0x7FFFFFFF)) =
        some (.arithmeticOverflow, .haltedError) ∧
      cause (step (img [0xFC000000])) = some (.illegalInstruction, .haltedError) ∧
      cause (step (img [0x00000000])) = some (.none, .running) := by decide

/-- EachCauseHasItsOwnConditions: sub (A13) and addi (I1) overflow. -/
theorem witness_overflow_causes :
    cause (step ((img [0x00221822]).setReg 2 0x80000000)) =
        some (.arithmeticOverflow, .haltedError) ∧
      cause (step ((img [0x20220001]).setReg 1 0x7FFFFFFF)) =
        some (.arithmeticOverflow, .haltedError) := by decide

/-- EachCauseHasItsOwnConditions: lhu and sh at 0x1001 (misaligned and past MEM_SIZE), lbu and sb
at 0x1000, sw at 0x1002. -/
theorem witness_access_causes :
    ([0x94011001, 0xA4011001, 0x90011000, 0xA0011000, 0xAC011002] : List Word).all
      (fun w => cause (step (img [w])) == some (.memoryAccessFault, .haltedError)) = true := by
  decide

/-- InstructionsWriteOnlyTheirTabledState: a store, a CTI, and an instruction that is neither. -/
theorem witness_InstructionsWriteOnlyTheirTabledState :
    val 1 (exec (.add 3 1 2) (st [(1, 5)])) = some (5, .running) ∧
      (1 : Reg) ∉ (Instr.add 3 1 2).writes ∧ (Instr.add 3 1 2).isStore = false ∧
      (Instr.add 3 1 2).isCti = false ∧
      wordAt 0x80 (exec (.sw 1 0 0x80) (st [(1, 5)])) = some 5 := by decide

/-- InstructionsReadOnlyTheirTabledRegisters: two register files that differ in x[3], a next state,
and a refusal. -/
theorem witness_InstructionsReadOnlyTheirTabledRegisters :
    (∀ r, r ∈ (Instr.add 4 1 2).reads →
      ({ st [(1, 5)] with regs := (st [(1, 5), (3, 9)]).regs } : State).reg r =
        (st [(1, 5)]).reg r) ∧
    val 4 (exec (.add 4 1 2) (st [(1, 5)])) = some (5, .running) ∧
    (st [(1, 5)]).reg 3 ≠ (st [(1, 5), (3, 9)]).reg 3 ∧
    refusal (exec (.j 4) (pending 0x40 (st []))) = some .ctiInDelaySlot := by decide

/-- StepKeepsTheInvariant, on a memory that is not empty. -/
theorem witness_StepKeepsTheInvariant :
    (img [0xAC010100]).Inv ∧ (img [0xAC010100]).mem ≠ [] ∧
      flow (step (img [0xAC010100])) = some (4, false, .running) := by decide

/-- ResetAndLaunchMeetTheInvariant and ALaunchLoadsTheImageAtZero: an address inside the image and
one beyond it. -/
theorem witness_launch :
    Memory.wf [(0x80, 7)] = true ∧ ([0xFE, 0xED] : List Byte).length ≤ 2 ^ 32 ∧
      (1 : Word).toNat < ([0xFE, 0xED] : List Byte).length ∧
      ([0xFE, 0xED] : List Byte).length ≤ (2 : Word).toNat ∧
      (State.launch (.sized 0x1000) [(0x80, 7)] [0xFE, 0xED]).byteAt 1 = 0xED ∧
      (State.launch (.sized 0x1000) [(0x80, 7)] [0xFE, 0xED]).byteAt 0x80 = 7 := by decide

/-- AnIdlePendTargetIsUnobservable: one step to a next state with and without a redirect pending,
one to a refusal, one to a fault. -/
theorem witness_AnIdlePendTargetIsUnobservable :
    (img [0xFEEDFEED]).pendValid = false ∧
      flow (step (img [0xFEEDFEED])) = some (4, false, .haltedClean) ∧
      (img [0x08000004]).pendValid = false ∧
      flow (step (img [0x08000004])) = some (4, true, .running) ∧
      refusal (step { st [] with pc := 0x13 }) = some .misalignedFetch ∧
      ({ st [] with pc := 0x13 } : State).pendValid = false := by decide

theorem witness_AnIdlePendTargetIsUnobservable_fault :
    Sys2Proof.core.run 1 { st [] with term := .haltedClean } = .fault .runEnded := rfl

/-- TheObservationIsTheFinalState: a state that has ended, two that differ in one register, and one
that runs. -/
theorem witness_TheObservationIsTheFinalState :
    ({ st [(1, 5)] with term := .haltedError } : State).ended ∧
      ({ st [(1, 5)] with term := .haltedError } : State).observe ≠
        ({ st [] with term := .haltedError } : State).observe ∧
      (st []).term = .running := by decide

/-- AStaleRegister0IsNeverRead: a clean halt with a value in x[0] before. -/
theorem witness_AStaleRegister0IsNeverRead :
    ((img [0xFEEDFEED]).setReg 0 7).fetchable ∧
      val 0 (step ((img [0xFEEDFEED]).setReg 0 7)) = some (0, .haltedClean) := by decide

/-- DecodeOfEncodeIsTheInstruction and EncodeOfDecodeKeepsTheUsedBits: a shift at the last count,
and E2, whose ignored shamt the encoder clears. -/
theorem witness_encoding :
    (Instr.srl 31 31 31).wf = true ∧ decode 0x002218A0 = .ok (.add 3 1 2) ∧
      encode (.add 3 1 2) = 0x002218A0 &&& (Instr.add 3 1 2).row.used := by decide

/-- DecodingFollowsTheOpcodeTable: a word of a row and a word of none, neither the sentinel. -/
theorem witness_DecodingFollowsTheOpcodeTable :
    (0x00221820 : Word) ≠ 0xFEEDFEED ∧ decode 0x00221820 = .ok (.add 3 1 2) ∧
      (0xFC000000 : Word) ≠ 0xFEEDFEED ∧
      decode 0xFC000000 = .error (.illegalOpcode 0xFC000000) := by decide

/-- Whether a word is illegal. -/
def illegal (w : Word) : Bool :=
  match decode w with
  | .ok _ => false
  | .error _ => true

/-- TheIllegalWordsAreThoseListed, opcodes: each listed range at its ends, and its neighbours. -/
theorem witness_illegal_opcodes :
    ([0x01, 0x0E, 0x10, 0x22, 0x26, 0x27, 0x2A, 0x2C, 0x3F] : List Word).all
        (fun op => illegal (op <<< 26)) = true ∧
      ([0x00, 0x02, 0x0D, 0x0F, 0x23, 0x25, 0x28, 0x29, 0x2B] : List Word).any
        (fun op => illegal (op <<< 26)) = false := by decide

/-- TheIllegalWordsAreThoseListed, function codes: the same. -/
theorem witness_illegal_function_codes :
    ([0x01, 0x03, 0x07, 0x09, 0x1F, 0x26, 0x28, 0x29, 0x2C, 0x3F] : List Word).all illegal =
        true ∧
      ([0x00, 0x02, 0x08, 0x20, 0x25, 0x27, 0x2A, 0x2B] : List Word).any illegal = false := by
  decide

end Sys2Proof.Tests
end

section
/-! The Value Extension Unit and the branch displacement (00_scope.md rules R7 to R9): each
extension by the number it reads as, the displacement as a multiplication by 4. -/

namespace Sys2Proof.Machine

/-- R7's formula: bit 15 decides whether the upper half is all ones or all zeros. -/
theorem sext32_eq_ite (v : Imm16) : sext32 v =
    if v.getLsbD 15 then 0xFFFF0000#32 ||| v.setWidth 32 else v.setWidth 32 := by
  have hmsb : v.msb = v.getLsbD 15 := BitVec.msb_eq_getLsbD_last v
  have hones : 0xFFFF0000#32 = BitVec.allOnes 16 ++ 0#16 := by decide
  have hzero : v.setWidth 32 = 0#16 ++ v := BitVec.setWidth_eq_append (by decide)
  have happend : sext32 v = (if v.msb then BitVec.allOnes 16 else 0#16) ++ v :=
    BitVec.signExtend_eq_append_of_le (by decide)
  rw [happend, hmsb, hzero, hones]
  split
  · rw [BitVec.or_append, BitVec.or_zero, BitVec.zero_or]
  · rfl

/-- Sign extension keeps the signed reading (R7). -/
@[simp] theorem toInt_sext32 (v : Imm16) : (sext32 v).toInt = v.toInt :=
  BitVec.toInt_signExtend_of_le (by decide)

/-- Zero extension of a value that fits a word keeps the number (R8). -/
theorem toNat_zext32 {n : Nat} (hn : n ≤ 32) (v : BitVec n) : (zext32 v).toNat = v.toNat :=
  BitVec.toNat_setWidth_of_le hn

/-- The displacement's shift by 2 multiplies the extended immediate by 4 (R9). -/
theorem bdisp_eq_mul_four (v : Imm16) : bdisp v = sext32 v * 4#32 :=
  BitVec.shiftLeft_eq_mul_twoPow (sext32 v) 2

/-- The displacement as a number, mod 2^32 (R9). -/
theorem toNat_bdisp (v : Imm16) : (bdisp v).toNat = (sext32 v).toNat * 4 % 2 ^ 32 := by
  rw [bdisp_eq_mul_four, BitVec.toNat_mul]
  rfl

/-- Four times a 16-bit signed number fits a word, so the displacement's signed reading does not
wrap (R9). -/
theorem toInt_bdisp (v : Imm16) : (bdisp v).toInt = 4 * v.toInt := by
  have hlo : -2 ^ 15 ≤ v.toInt := BitVec.le_toInt v
  have hhi : v.toInt < 2 ^ 15 := BitVec.toInt_lt
  calc (bdisp v).toInt
      = (v.toInt * 4).bmod (2 ^ 32) := by
        rw [bdisp_eq_mul_four, BitVec.toInt_mul, toInt_sext32]
        rfl
    _ = v.toInt * 4 := Int.bmod_eq_of_le_mul_two (by omega) (by omega)
    _ = 4 * v.toInt := Int.mul_comm _ _

/-- Word alignment of the displacement: the wrap at 2^32 keeps multiples of 4 (R9). -/
theorem toNat_bdisp_mod_four (v : Imm16) : (bdisp v).toNat % 4 = 0 := by
  rw [toNat_bdisp]
  omega

/-- Settles O2: the displacement as a number, as a signed number and its alignment, each by its
own lemma about `bdisp`. -/
theorem branchDisplacementIsFourTimesTheImmediate :
    Obligations.BranchDisplacementIsFourTimesTheImmediate :=
  ⟨fun v => ⟨toNat_bdisp v, toInt_bdisp v, toNat_bdisp_mod_four v⟩, by decide⟩

/-- Settles O1: the sign extension by its formula in bit 15, both zero extensions by the one lemma
for every width up to a word. -/
theorem extensionUnitExtends : Obligations.ExtensionUnitExtends :=
  ⟨sext32_eq_ite, toNat_zext32 (by decide), toNat_zext32 (by decide)⟩

end Sys2Proof.Machine
end

section
/-! When a step is defined: only while the run is Running (10_state.md rule R26). -/

namespace Sys2Proof.Machine

/-- A step that answers a next state starts Running (R26). -/
theorem running_of_step_next {s t : State} (h : step s = .next t) : s.term = .running := by
  by_contra hended
  have hfault : step s = .fault .runEnded := step_ended hended
  cases hfault.symm.trans h

/-- Any positive number of steps from an ended state answers the fault of its first step (R26). -/
theorem run_succ_ended {s : State} (h : s.ended) (k : Nat) :
    Sys2Proof.core.run (k + 1) s = .fault .runEnded :=
  run_fault (step_ended h) k

/-- Settles O34: the reset state by its definition, the step by `running_of_step_next`; a run from
an ended state faults at its first step. -/
theorem noStepIsTakenOnceEnded : Obligations.NoStepIsTakenOnceEnded := by
  refine ⟨rfl, fun s t h => running_of_step_next h, fun k s t hended hrun => ?_⟩
  have hfault : Sys2Proof.core.run (k + 1) s = .fault .runEnded := run_succ_ended hended k
  cases hfault.symm.trans hrun

end Sys2Proof.Machine
end

section
/-! How the register-register words decode whatever their unused fields hold (41_register_alu.md
rule R110, D14), and addi beside them. -/

namespace Sys2Proof

theorem decode_add (rd rs rt : Reg) (sh : BitVec 5) :
    decode (wordR rs rt rd sh 0x20#6) = .ok (.add rd rs rt) := by
  simp [decode_wordR, decodeRType]

theorem decode_addu (rd rs rt : Reg) (sh : BitVec 5) :
    decode (wordR rs rt rd sh 0x21#6) = .ok (.addu rd rs rt) := by
  simp [decode_wordR, decodeRType]

theorem decode_subu (rd rs rt : Reg) (sh : BitVec 5) :
    decode (wordR rs rt rd sh 0x23#6) = .ok (.subu rd rs rt) := by
  simp [decode_wordR, decodeRType]

theorem decode_and (rd rs rt : Reg) (sh : BitVec 5) :
    decode (wordR rs rt rd sh 0x24#6) = .ok (.and rd rs rt) := by
  simp [decode_wordR, decodeRType]

theorem decode_or (rd rs rt : Reg) (sh : BitVec 5) :
    decode (wordR rs rt rd sh 0x25#6) = .ok (.or rd rs rt) := by
  simp [decode_wordR, decodeRType]

theorem decode_nor (rd rs rt : Reg) (sh : BitVec 5) :
    decode (wordR rs rt rd sh 0x27#6) = .ok (.nor rd rs rt) := by
  simp [decode_wordR, decodeRType]

theorem decode_slt (rd rs rt : Reg) (sh : BitVec 5) :
    decode (wordR rs rt rd sh 0x2A#6) = .ok (.slt rd rs rt) := by
  simp [decode_wordR, decodeRType]

theorem decode_sltu (rd rs rt : Reg) (sh : BitVec 5) :
    decode (wordR rs rt rd sh 0x2B#6) = .ok (.sltu rd rs rt) := by
  simp [decode_wordR, decodeRType]

theorem decode_sll (rd rs rt : Reg) (sh : BitVec 5) :
    decode (wordR rs rt rd sh 0x00#6) = .ok (.sll rd rt sh.toNat) := by
  simp [decode_wordR, decodeRType]

theorem decode_srl (rd rs rt : Reg) (sh : BitVec 5) :
    decode (wordR rs rt rd sh 0x02#6) = .ok (.srl rd rt sh.toNat) := by
  simp [decode_wordR, decodeRType]

theorem decode_addi (rt rs : Reg) (imm : Imm16) :
    decode (wordI 0x08#6 rs rt imm) = .ok (.addi rt rs imm) := by
  simp [decode_wordI, decodeOp]

end Sys2Proof
end

section
/-! What the register-register instructions and addi do to a state: the state each answers, and the
frame of a register write with and without an error raised after it. -/

namespace Sys2Proof.Machine

/-! ### The state each instruction answers (R110 to R121, R123) -/

theorem exec_add (rd rs rt : Reg) (s : State) : exec (.add rd rs rt) s =
    writeChecked rd (s.reg rs + s.reg rt)
      (ovfAdd (s.reg rs) (s.reg rt) (s.reg rs + s.reg rt)) (s.reg rs) (s.reg rt) s := rfl

theorem exec_addi (rt rs : Reg) (imm : Imm16) (s : State) : exec (.addi rt rs imm) s =
    writeChecked rt (s.reg rs + sext32 imm)
      (ovfAdd (s.reg rs) (sext32 imm) (s.reg rs + sext32 imm)) (s.reg rs) (sext32 imm) s := rfl

theorem exec_addu (rd rs rt : Reg) (s : State) :
    exec (.addu rd rs rt) s = .next (s.setReg rd (s.reg rs + s.reg rt)) := rfl

theorem exec_subu (rd rs rt : Reg) (s : State) :
    exec (.subu rd rs rt) s = .next (s.setReg rd (s.reg rs - s.reg rt)) := rfl

theorem exec_and (rd rs rt : Reg) (s : State) :
    exec (.and rd rs rt) s = .next (s.setReg rd (s.reg rs &&& s.reg rt)) := rfl

theorem exec_or (rd rs rt : Reg) (s : State) :
    exec (.or rd rs rt) s = .next (s.setReg rd (s.reg rs ||| s.reg rt)) := rfl

theorem exec_nor (rd rs rt : Reg) (s : State) :
    exec (.nor rd rs rt) s = .next (s.setReg rd (~~~(s.reg rs ||| s.reg rt))) := rfl

theorem exec_slt (rd rs rt : Reg) (s : State) :
    exec (.slt rd rs rt) s = .next (s.setReg rd (boolWord (ltSigned (s.reg rs) (s.reg rt)))) := rfl

theorem exec_sltu (rd rs rt : Reg) (s : State) :
    exec (.sltu rd rs rt) s = .next (s.setReg rd (boolWord (ltUnsigned (s.reg rs) (s.reg rt)))) :=
  rfl

theorem exec_sll (rd rt : Reg) (shamt : Nat) (s : State) :
    exec (.sll rd rt shamt) s = .next (s.setReg rd (s.reg rt <<< shamt)) := rfl

theorem exec_srl (rd rt : Reg) (shamt : Nat) (s : State) :
    exec (.srl rd rt shamt) s = .next (s.setReg rd (s.reg rt >>> shamt)) := rfl

/-! ### The frame of a register write -/

theorem keepsRegsBut_setReg (rd : Reg) (v : Word) (s : State) : KeepsRegsBut rd s (s.setReg rd v) :=
  fun r hr => (reg_setReg s rd r v).trans (if_neg hr)

/-- A register write changes nothing but that register. -/
theorem onlyReg_setReg (rd : Reg) (v : Word) (s : State) : OnlyReg rd s (s.setReg rd v) :=
  ⟨keepsRegsBut_setReg rd v s, fun _ => rfl, ⟨rfl, rfl, rfl⟩, ⟨rfl, rfl, rfl⟩, rfl⟩

/-- An error raised after a register write adds only the record of the error to it (R162, R165). -/
theorem onlyRegAndError_raise_setReg (d : Diag) (rd : Reg) (v : Word) (s : State) :
    OnlyRegAndError rd s (raise d (s.setReg rd v)) :=
  ⟨keepsRegsBut_setReg rd v s, fun _ => rfl, ⟨rfl, rfl, rfl⟩, rfl⟩

/-- A checked write whose check fires exactly outside `InRange`: the destination is written either
way, and the error is recorded exactly outside `InRange` (R111, R113, R123, R162). -/
theorem writeChecked_raises_iff {InRange : Prop} [Decidable InRange] {ovf : Bool}
    (hovf : ovf = true ↔ ¬ InRange) (rd : Reg) (r a b : Word) (s : State) :
    ∃ t, writeChecked rd r ovf a b s = .next t ∧ t.reg rd = r ∧ OnlyRegAndError rd s t ∧
      if InRange then KeepsRun s t else Raised (.arithmeticOverflow a b) s t := by
  rw [writeChecked_eq]
  by_cases hin : InRange
  · have hoff : ¬ ovf = true := fun h => hovf.mp h hin
    obtain ⟨hregs, hmem, hflow, hrun, hadm⟩ := onlyReg_setReg rd r s
    rw [if_neg hoff]
    exact ⟨_, rfl, reg_setReg_same s rd r, ⟨hregs, hmem, hflow, hadm⟩, by rwa [if_pos hin]⟩
  · rw [if_pos (hovf.mpr hin)]
    refine ⟨_, rfl, reg_setReg_same s rd r, onlyRegAndError_raise_setReg _ rd r s, ?_⟩
    rw [if_neg hin]
    exact ⟨rfl, rfl, rfl⟩

end Sys2Proof.Machine
end

section
/-! The values the register-register instructions and addi write, as numbers, and the family's
statements settled from them (41_register_alu.md rules R110 to R121, 42_immediate_alu.md rule
R123). -/

namespace Sys2Proof.Machine

/-! ### Values -/

/-- The wrapped difference is the true difference mod 2^32 (R114). -/
theorem toNat_sub_eq_emod (a b : Word) :
    ((a - b).toNat : Int) = ((a.toNat : Int) - b.toNat) % 2 ^ 32 := by
  rw [BitVec.toNat_sub]
  omega

/-- A sign-extended immediate, read unsigned, is the signed immediate mod 2^32 (R7). -/
theorem toNat_sext32 (imm : Imm16) : ((sext32 imm).toNat : Int) = imm.toInt % 2 ^ 32 := by
  have hmod : (sext32 imm).toInt % 2 ^ 32 = ((sext32 imm).toNat : Int) % 2 ^ 32 := by
    rw [BitVec.toInt_eq_toNat_bmod]
    exact Int.bmod_emod
  rw [← toInt_sext32, hmod]
  omega

/-- Adding a sign-extended immediate adds its signed reading mod 2^32 (R123). -/
theorem toNat_add_sext32 (a : Word) (imm : Imm16) :
    ((a + sext32 imm).toNat : Int) = (a.toNat + imm.toInt) % 2 ^ 32 := by
  have himm : ((sext32 imm).toNat : Int) = imm.toInt % 2 ^ 32 := toNat_sext32 imm
  rw [BitVec.toNat_add]
  omega

/-- A set-on-less-than writes 1 or 0 (R118). -/
theorem toNat_boolWord_decide (p : Prop) [Decidable p] :
    (boolWord (decide p)).toNat = if p then 1 else 0 := by
  by_cases hp : p <;> simp [boolWord, hp]

/-- The signed overflow of a sum is the library's `saddOverflow` (R10). -/
theorem ovfAdd_eq_saddOverflow (a b : Word) : ovfAdd a b (a + b) = a.saddOverflow b :=
  (BitVec.saddOverflow_eq a b).symm

/-- The add checker on the wrapped sum fires exactly when the signed sum is out of range (R10). -/
theorem ovfAdd_add_iff (a b : Word) : ovfAdd a b (a + b) = true ↔
    ¬ (-2 ^ 31 ≤ a.toInt + b.toInt ∧ a.toInt + b.toInt < 2 ^ 31) := by
  rw [ovfAdd_eq_saddOverflow, BitVec.saddOverflow, Bool.or_eq_true, decide_eq_true_iff,
    decide_eq_true_iff]
  omega

/-! ### The statements -/

/-- Settles O4: the written word is the sum or difference by its reading mod 2^32, the frame is
that of a register write. -/
theorem adduAndSubuWriteTheWrappedResult : Obligations.AdduAndSubuWriteTheWrappedResult := by
  intro rd rs rt sh s
  refine ⟨⟨decode_addu rd rs rt sh, _, exec_addu rd rs rt s, ?sum, onlyReg_setReg ..⟩,
    ⟨decode_subu rd rs rt sh, _, exec_subu rd rs rt s, ?difference, onlyReg_setReg ..⟩⟩
  case sum => rw [reg_setReg_same, BitVec.toNat_add]
  case difference => rw [reg_setReg_same, toNat_sub_eq_emod]

/-- Settles O5: each bit of the written word by the library's lemma for the operator; nor's
complement needs the bit to lie in the word. -/
theorem andOrNorWorkBitwise : Obligations.AndOrNorWorkBitwise := by
  intro rd rs rt sh s
  refine ⟨⟨decode_and rd rs rt sh, _, exec_and rd rs rt s, onlyReg_setReg .., fun k _ => ?and⟩,
    ⟨decode_or rd rs rt sh, _, exec_or rd rs rt s, onlyReg_setReg .., fun k _ => ?or⟩,
    ⟨decode_nor rd rs rt sh, _, exec_nor rd rs rt s, onlyReg_setReg .., fun k hk => ?nor⟩⟩
  case and => rw [reg_setReg_same, BitVec.getLsbD_and]
  case or => rw [reg_setReg_same, BitVec.getLsbD_or]
  case nor =>
    rw [reg_setReg_same, BitVec.getLsbD_not, BitVec.getLsbD_or, decide_eq_true hk, Bool.true_and]

/-- Settles O6: both comparisons are decided propositions, and `toNat_boolWord_decide` reads the
word they write. -/
theorem sltAndSltuCompare : Obligations.SltAndSltuCompare := by
  intro rd rs rt sh s
  refine ⟨⟨decode_slt rd rs rt sh, _, exec_slt rd rs rt s, ?signed, onlyReg_setReg ..⟩,
    ⟨decode_sltu rd rs rt sh, _, exec_sltu rd rs rt s, ?unsigned, onlyReg_setReg ..⟩⟩
  case signed => rw [reg_setReg_same, ltSigned, toNat_boolWord_decide]
  case unsigned => rw [reg_setReg_same, ltUnsigned, toNat_boolWord_decide]

/-- Settles O7: a shift left multiplies by a power of two and wraps, a zero-filling shift right
divides by it. -/
theorem sllAndSrlShiftLogically : Obligations.SllAndSrlShiftLogically := by
  intro rd rs rt sh s
  refine ⟨⟨decode_sll rd rs rt sh, _, exec_sll rd rt sh.toNat s, ?left, onlyReg_setReg ..⟩,
    ⟨decode_srl rd rs rt sh, _, exec_srl rd rt sh.toNat s, ?right, onlyReg_setReg ..⟩⟩
  case left => rw [reg_setReg_same, BitVec.toNat_shiftLeft, Nat.shiftLeft_eq]
  case right => rw [reg_setReg_same, BitVec.toNat_ushiftRight, Nat.shiftRight_eq_div_pow]

/-- Settles O8: both are a checked write of a wrapped sum, whose check `ovfAdd_add_iff` says fires
exactly when the signed sum is out of range; addi's second operand reads as the signed immediate. -/
theorem addAndAddiWriteThenRaiseOnOverflow : Obligations.AddAndAddiWriteThenRaiseOnOverflow := by
  intro rd rs rt sh imm s
  refine ⟨⟨decode_add rd rs rt sh, ?add⟩, ⟨decode_addi rt rs imm, ?addi⟩⟩
  case add =>
    obtain ⟨t, hexec, hreg, hframe, hraise⟩ := writeChecked_raises_iff
      (ovfAdd_add_iff (s.reg rs) (s.reg rt)) rd (s.reg rs + s.reg rt) (s.reg rs) (s.reg rt) s
    exact ⟨t, (exec_add rd rs rt s).trans hexec, by rw [hreg, BitVec.toNat_add], hframe, hraise⟩
  case addi =>
    obtain ⟨t, hexec, hreg, hframe, hraise⟩ := writeChecked_raises_iff
      (ovfAdd_add_iff (s.reg rs) (sext32 imm)) rt (s.reg rs + sext32 imm) (s.reg rs) (sext32 imm) s
    rw [toInt_sext32] at hraise
    exact ⟨t, (exec_addi rt rs imm s).trans hexec, by rw [hreg, toNat_add_sext32], hframe, hraise⟩

end Sys2Proof.Machine
end

section
/-! How the register-immediate words other than addi's decode (30_encoding.md rule R64); lui's
whatever its unused rs field holds (D14). -/

namespace Sys2Proof

theorem decode_addiu (rt rs : Reg) (imm : Imm16) :
    decode (wordI 0x09#6 rs rt imm) = .ok (.addiu rt rs imm) := by
  simp [decode_wordI, decodeOp]

theorem decode_slti (rt rs : Reg) (imm : Imm16) :
    decode (wordI 0x0A#6 rs rt imm) = .ok (.slti rt rs imm) := by
  simp [decode_wordI, decodeOp]

theorem decode_sltiu (rt rs : Reg) (imm : Imm16) :
    decode (wordI 0x0B#6 rs rt imm) = .ok (.sltiu rt rs imm) := by
  simp [decode_wordI, decodeOp]

theorem decode_andi (rt rs : Reg) (imm : Imm16) :
    decode (wordI 0x0C#6 rs rt imm) = .ok (.andi rt rs imm) := by
  simp [decode_wordI, decodeOp]

theorem decode_ori (rt rs : Reg) (imm : Imm16) :
    decode (wordI 0x0D#6 rs rt imm) = .ok (.ori rt rs imm) := by
  simp [decode_wordI, decodeOp]

theorem decode_lui (rt rs : Reg) (imm : Imm16) :
    decode (wordI 0x0F#6 rs rt imm) = .ok (.lui rt imm) := by
  simp [decode_wordI, decodeOp]

end Sys2Proof
end

section
/-! What the register-immediate instructions other than addi write: the state each answers, the
values as numbers or bit by bit, and the family's statements settled from them
(42_immediate_alu.md rules R122 and R124 to R129). -/

namespace Sys2Proof.Machine

/-! ### The state each instruction answers (R124 to R129) -/

theorem exec_addiu (rt rs : Reg) (imm : Imm16) (s : State) :
    exec (.addiu rt rs imm) s = .next (s.setReg rt (s.reg rs + sext32 imm)) := rfl

theorem exec_andi (rt rs : Reg) (imm : Imm16) (s : State) :
    exec (.andi rt rs imm) s = .next (s.setReg rt (s.reg rs &&& zext32 imm)) := rfl

theorem exec_ori (rt rs : Reg) (imm : Imm16) (s : State) :
    exec (.ori rt rs imm) s = .next (s.setReg rt (s.reg rs ||| zext32 imm)) := rfl

theorem exec_slti (rt rs : Reg) (imm : Imm16) (s : State) : exec (.slti rt rs imm) s =
    .next (s.setReg rt (boolWord (ltSigned (s.reg rs) (sext32 imm)))) := rfl

theorem exec_sltiu (rt rs : Reg) (imm : Imm16) (s : State) : exec (.sltiu rt rs imm) s =
    .next (s.setReg rt (boolWord (ltUnsigned (s.reg rs) (sext32 imm)))) := rfl

theorem exec_lui (rt : Reg) (imm : Imm16) (s : State) :
    exec (.lui rt imm) s = .next (s.setReg rt (upperImm imm)) := rfl

/-! ### Values -/

/-- lui's word is the immediate times 2^16, which never wraps (R129). -/
theorem toNat_upperImm (imm : Imm16) : (upperImm imm).toNat = imm.toNat * 2 ^ 16 := by
  rw [upperImm, BitVec.toNat_append, ← Nat.shiftLeft_eq]
  exact Nat.or_zero _

/-- A zero-extended immediate keeps its own bits; its upper half is clear (R8). -/
theorem getLsbD_zext32_imm (imm : Imm16) {k : Nat} (hk : k < 32) :
    (zext32 imm).getLsbD k = (decide (k < 16) && imm.getLsbD k) := by
  have hhigh : imm.getLsbD k = true → k < 16 := BitVec.lt_of_getLsbD
  simpa [zext32, hk] using hhigh

/-- The signed comparison with a sign-extended immediate is with the signed immediate (R127). -/
theorem ltSigned_sext32 (a : Word) (imm : Imm16) :
    ltSigned a (sext32 imm) = decide (a.toInt < imm.toInt) := by
  rw [ltSigned, toInt_sext32]

/-- The unsigned comparison with a sign-extended immediate is with the signed immediate mod 2^32
(R128). -/
theorem ltUnsigned_sext32 (a : Word) (imm : Imm16) :
    ltUnsigned a (sext32 imm) = decide ((a.toNat : Int) < imm.toInt % 2 ^ 32) := by
  rw [ltUnsigned, ← toNat_sext32, decide_eq_decide, Int.ofNat_lt]

/-! ### The statements -/

/-- Settles O10: addiu's sum by `toNat_add_sext32`, lui's word by `toNat_upperImm`; the frame is
that of a register write. -/
theorem addiuAndLuiWriteTheirResult : Obligations.AddiuAndLuiWriteTheirResult := by
  intro rs rt imm s
  refine ⟨⟨decode_addiu rt rs imm, _, exec_addiu rt rs imm s, ?sum, onlyReg_setReg ..⟩,
    ⟨decode_lui rt rs imm, _, exec_lui rt imm s, ?upper, onlyReg_setReg ..⟩⟩
  case sum => rw [reg_setReg_same, toNat_add_sext32]
  case upper => rw [reg_setReg_same, toNat_upperImm]

/-- Settles O11: each bit of the written word by the library's lemma for the operator, the
immediate's bit by `getLsbD_zext32_imm`. -/
theorem andiAndOriUseTheZeroExtendedImmediate :
    Obligations.AndiAndOriUseTheZeroExtendedImmediate := by
  intro rs rt imm s
  refine ⟨⟨decode_andi rt rs imm, _, exec_andi rt rs imm s, onlyReg_setReg .., fun k hk => ?and⟩,
    ⟨decode_ori rt rs imm, _, exec_ori rt rs imm s, onlyReg_setReg .., fun k hk => ?or⟩⟩
  case and => rw [reg_setReg_same, BitVec.getLsbD_and, getLsbD_zext32_imm imm hk]
  case or => rw [reg_setReg_same, BitVec.getLsbD_or, getLsbD_zext32_imm imm hk]

/-- Settles O12: each comparison by its reading of the sign-extended immediate, the word it writes
by `toNat_boolWord_decide`. -/
theorem sltiAndSltiuCompareWithTheSignExtendedImmediate :
    Obligations.SltiAndSltiuCompareWithTheSignExtendedImmediate := by
  intro rs rt imm s
  refine ⟨⟨decode_slti rt rs imm, _, exec_slti rt rs imm s, ?signed, onlyReg_setReg ..⟩,
    ⟨decode_sltiu rt rs imm, _, exec_sltiu rt rs imm s, ?unsigned, onlyReg_setReg ..⟩⟩
  case signed => rw [reg_setReg_same, ltSigned_sext32, toNat_boolWord_decide]
  case unsigned => rw [reg_setReg_same, ltUnsigned_sext32, toNat_boolWord_decide]

end Sys2Proof.Machine
end

section
/-! How the load words decode (30_encoding.md rule R64). -/

namespace Sys2Proof

theorem decode_lw (rt rs : Reg) (imm : Imm16) :
    decode (wordI 0x23#6 rs rt imm) = .ok (.lw rt rs imm) := by
  simp [decode_wordI, decodeOp]

theorem decode_lbu (rt rs : Reg) (imm : Imm16) :
    decode (wordI 0x24#6 rs rt imm) = .ok (.lbu rt rs imm) := by
  simp [decode_wordI, decodeOp]

end Sys2Proof
end

section
/-! What the loads do to a state: the effective address as a number, the frame of a load of any
width, the default admission turned around, and the value read as a number from the bytes it is
assembled from; then lw and lbu settled from them (43_load_store.md rules R130 to R132). -/

namespace Sys2Proof.Machine

/-! ### The operation each instruction performs (R131, R132) -/

theorem exec_lw (rt rs : Reg) (imm : Imm16) (s : State) :
    exec (.lw rt rs imm) s = load .word rt (effAddr (s.reg rs) imm) s := rfl

theorem exec_lbu (rt rs : Reg) (imm : Imm16) (s : State) :
    exec (.lbu rt rs imm) s = load .byte rt (effAddr (s.reg rs) imm) s := rfl

/-! ### The address and its admission -/

/-- The effective address is base plus signed offset mod 2^32 (R130). -/
theorem toNat_effAddr (base : Word) (imm : Imm16) :
    ((effAddr base imm).toNat : Int) = (base.toNat + imm.toInt) % 2 ^ 32 :=
  toNat_add_sext32 base imm

/-- Under the default admission an access is refused exactly when it is misaligned or ends past
MEM_SIZE (R44). -/
theorem admits_eq_false_of_sized {c : Admission} {n : Nat} (hc : c = .sized n) (a : Word)
    (w : Width) : c.admits a w = false ↔ a.toNat % w.bytes ≠ 0 ∨ n < a.toNat + w.bytes := by
  rw [hc, ← Bool.not_eq_true, admits_sized, not_and_or, not_le]

/-! ### The frame of a load (R130) -/

/-- An error raised changes nothing but the record of the error (R165). -/
theorem onlyError_raise (d : Diag) (s : State) : OnlyError d s (raise d s) :=
  ⟨⟨rfl, rfl, rfl⟩, fun _ => rfl, fun _ => rfl, ⟨rfl, rfl, rfl⟩, rfl⟩

/-- An admitted load puts the value read in its register and changes nothing else. -/
theorem load_onlyReg {w : Width} {ea : Word} {s : State} (ha : s.admission.admits ea w = true)
    (rt : Reg) : ∃ t, load w rt ea s = .next t ∧ OnlyReg rt s t ∧ t.reg rt = s.mem.read ea w := by
  rcases load_cases w rt ea s with ⟨-, hload⟩ | ⟨hrefused, -⟩
  · exact ⟨_, hload, onlyReg_setReg .., reg_setReg_same ..⟩
  · exact absurd (ha.symm.trans hrefused) (by decide)

/-- A load that is not admitted raises its fault and changes nothing else, its register included. -/
theorem load_onlyError {w : Width} {ea : Word} {s : State} (ha : s.admission.admits ea w = false)
    (rt : Reg) : ∃ t, load w rt ea s = .next t ∧ OnlyError (.memoryAccessFault ea w) s t := by
  rcases load_cases w rt ea s with ⟨hadmitted, -⟩ | ⟨-, hload⟩
  · exact absurd (ha.symm.trans hadmitted) (by decide)
  · exact ⟨_, hload, onlyError_raise ..⟩

/-! ### The value read (R42) -/

/-- A byte appended below shifts the rest up by eight bits. -/
theorem toNat_append_byte {n : Nat} (v : BitVec n) (b : Byte) :
    (v ++ b).toNat = v.toNat * 2 ^ 8 + b.toNat := by
  rw [BitVec.toNat_append, ← Nat.shiftLeft_add_eq_or_of_lt b.isLt, Nat.shiftLeft_eq]

/-- A byte read, as a number: the byte zero-extended. -/
theorem toNat_read_byte (s : State) (a : Word) :
    (s.mem.read a .byte).toNat = (s.byteAt a).toNat :=
  toNat_zext32 (by decide) (s.byteAt a)

/-- A word read, as a number: four bytes, the most significant at the lowest address. -/
theorem toNat_read_word (s : State) (a : Word) : (s.mem.read a .word).toNat =
    (s.byteAt a).toNat * 2 ^ 24 + (s.byteAt (a + 1)).toNat * 2 ^ 16 +
      (s.byteAt (a + 2)).toNat * 2 ^ 8 + (s.byteAt (a + 3)).toNat := by
  have hread : s.mem.read a .word =
      s.byteAt a ++ s.byteAt (a + 1) ++ s.byteAt (a + 2) ++ s.byteAt (a + 3) := rfl
  rw [hread, toNat_append_byte, toNat_append_byte, toNat_append_byte]
  ring

/-! ### The statement -/

/-- Settles O13: both are a load of their width at the effective address, whose frame is
`load_onlyReg` or `load_onlyError`; the value and the default admission differ by width only. -/
theorem lwAndLbuReadMemory : Obligations.LwAndLbuReadMemory := by
  rintro rs rt imm s ea rfl
  refine ⟨toNat_effAddr _ _,
    ⟨decode_lw rt rs imm, fun ha => ?lw,
      fun ha => exec_lw rt rs imm s ▸ load_onlyError ha rt,
      fun n hn => ?lwSized⟩,
    ⟨decode_lbu rt rs imm, fun ha => ?lbu,
      fun ha => exec_lbu rt rs imm s ▸ load_onlyError ha rt,
      fun n hn => ?lbuSized⟩⟩
  case lw =>
    obtain ⟨t, hload, hframe, hreg⟩ := load_onlyReg ha rt
    exact ⟨t, (exec_lw rt rs imm s).trans hload, hframe, by rw [hreg, toNat_read_word]⟩
  case lbu =>
    obtain ⟨t, hload, hframe, hreg⟩ := load_onlyReg ha rt
    exact ⟨t, (exec_lbu rt rs imm s).trans hload, hframe, by rw [hreg, toNat_read_byte]⟩
  case lwSized => exact admits_eq_false_of_sized hn _ .word
  case lbuSized =>
    refine (admits_eq_false_of_sized hn _ .byte).trans ?_
    simp only [Width.bytes]
    omega

end Sys2Proof.Machine
end

section
/-! How the words of jr and of the branches decode, whatever their unused fields hold
(44_control.md rules R146 to R150, D14). -/

namespace Sys2Proof

theorem decode_jr (rs rt rd : Reg) (sh : BitVec 5) :
    decode (wordR rs rt rd sh 0x08#6) = .ok (.jr rs) := by
  simp [decode_wordR, decodeRType]

theorem decode_beq (rs rt : Reg) (imm : Imm16) :
    decode (wordI 0x04#6 rs rt imm) = .ok (.beq rs rt imm) := by
  simp [decode_wordI, decodeOp]

theorem decode_bne (rs rt : Reg) (imm : Imm16) :
    decode (wordI 0x05#6 rs rt imm) = .ok (.bne rs rt imm) := by
  simp [decode_wordI, decodeOp]

theorem decode_blez (rs rt : Reg) (imm : Imm16) :
    decode (wordI 0x06#6 rs rt imm) = .ok (.blez rs imm) := by
  simp [decode_wordI, decodeOp]

theorem decode_bgtz (rs rt : Reg) (imm : Imm16) :
    decode (wordI 0x07#6 rs rt imm) = .ok (.bgtz rs imm) := by
  simp [decode_wordI, decodeOp]

end Sys2Proof
end

section
/-! What a control transfer does with no redirect pending: the frame of a request, the branch target
as a number, and a branch taken and not taken; then jr and the branches settled from them
(44_control.md rules R141 and R144 to R150). -/

namespace Sys2Proof.Machine

/-! ### The operation each instruction performs (R146 to R150) -/

theorem exec_jr (rs : Reg) (s : State) :
    exec (.jr rs) s = controlTransfer (some (s.reg rs)) s := rfl

theorem exec_beq (rs rt : Reg) (imm : Imm16) (s : State) :
    exec (.beq rs rt imm) s = branchIf (s.reg rs == s.reg rt) imm s := rfl

theorem exec_bne (rs rt : Reg) (imm : Imm16) (s : State) :
    exec (.bne rs rt imm) s = branchIf (s.reg rs != s.reg rt) imm s := rfl

theorem exec_blez (rs : Reg) (imm : Imm16) (s : State) :
    exec (.blez rs imm) s = branchIf (decide ((s.reg rs).toInt ≤ 0)) imm s := rfl

theorem exec_bgtz (rs : Reg) (imm : Imm16) (s : State) :
    exec (.bgtz rs imm) s = branchIf (decide (0 < (s.reg rs).toInt)) imm s := rfl

/-! ### Requests -/

/-- A request makes its target pending and keeps the PC, memory and the outputs (R142). -/
theorem redirects_request (target : Word) (s : State) :
    Redirects target s (request (some target) s) :=
  ⟨rfl, rfl, rfl, fun _ => rfl, ⟨rfl, rfl, rfl⟩, rfl⟩

theorem keepsRegs_request (req : Option Word) (s : State) : KeepsRegs s (request req s) :=
  fun r => reg_request req s r

/-- With no redirect pending, a control transfer is its request and nothing else (R143). -/
theorem controlTransfer_idle {s : State} (hidle : s.pendValid = false) (req : Option Word) :
    controlTransfer req s = .next (request req s) := by
  rcases controlTransfer_cases req s with ⟨hpending, -⟩ | ⟨-, hnext⟩
  · exact absurd (hidle.symm.trans hpending) (by decide)
  · exact hnext

/-- A control transfer to `target` makes it pending and changes nothing else. -/
theorem controlTransfer_some_redirects {s : State} (hidle : s.pendValid = false) (target : Word) :
    ∃ t, controlTransfer (some target) s = .next t ∧ Redirects target s t ∧ KeepsRegs s t :=
  ⟨_, controlTransfer_idle hidle _, redirects_request target s, keepsRegs_request _ s⟩

/-! ### Branches -/

/-- The branch target is pc_inc plus four times the signed immediate, mod 2^32 (R144). -/
theorem branchTarget_eq_ofInt (pcInc : Word) (imm : Imm16) :
    branchTarget pcInc imm = BitVec.ofInt 32 (pcInc.toNat + 4 * imm.toInt) := by
  rw [← toInt_bdisp, BitVec.ofInt_add, BitVec.ofInt_toInt, BitVec.ofInt_natCast,
    BitVec.ofNat_toNat, BitVec.setWidth_eq, branchTarget]

/-- A branch taken makes its target pending and changes nothing else (R144). -/
theorem branchIf_taken {s : State} {taken : Bool} (hidle : s.pendValid = false)
    (htaken : taken = true) (imm : Imm16) :
    ∃ t, branchIf taken imm s = .next t ∧
      Redirects (BitVec.ofInt 32 (s.pc.toNat + 4 * imm.toInt)) s t ∧ KeepsRegs s t := by
  rw [branchIf, if_pos htaken, branchTarget_eq_ofInt]
  exact controlTransfer_some_redirects hidle _

/-- A branch not taken changes nothing at all (R141). -/
theorem branchIf_notTaken {s : State} {taken : Bool} (hidle : s.pendValid = false)
    (hnot : taken = false) (imm : Imm16) : branchIf taken imm s = .next s := by
  rw [branchIf, hnot]
  exact controlTransfer_idle hidle none

/-! ### The statements -/

/-- Settles O21: jr is a control transfer to the register's value. -/
theorem jrRequestsTheRegisterTarget : Obligations.JrRequestsTheRegisterTarget := by
  intro rs rt rd sh s
  refine ⟨decode_jr rs rt rd sh, fun hidle => ?_⟩
  rw [exec_jr]
  exact controlTransfer_some_redirects hidle (s.reg rs)

/-- Settles O22: both are a branch, on the test `==` for beq and `!=` for bne. -/
theorem beqAndBneRequestTheirTarget : Obligations.BeqAndBneRequestTheirTarget := by
  rintro rs rt imm s target rfl
  refine ⟨⟨decode_beq rs rt imm, fun hidle => ?beq⟩, ⟨decode_bne rs rt imm, fun hidle => ?bne⟩⟩
  case beq =>
    rw [exec_beq]
    exact ⟨fun heq => branchIf_taken hidle (beq_iff_eq.mpr heq) imm,
      fun hne => branchIf_notTaken hidle (beq_eq_false_iff_ne.mpr hne) imm⟩
  case bne =>
    rw [exec_bne]
    exact ⟨fun hne => branchIf_taken hidle (bne_iff_ne.mpr hne) imm,
      fun heq => branchIf_notTaken hidle (bne_eq_false_iff_eq.mpr heq) imm⟩

/-- Settles O23: both are a branch on a signed comparison with 0, each taken exactly where the other
is not. -/
theorem blezAndBgtzRequestTheirTarget : Obligations.BlezAndBgtzRequestTheirTarget := by
  rintro rs rt imm s target rfl
  refine ⟨⟨decode_blez rs rt imm, fun hidle => ?blez⟩, ⟨decode_bgtz rs rt imm, fun hidle => ?bgtz⟩⟩
  case blez =>
    rw [exec_blez]
    exact ⟨fun hle => branchIf_taken hidle (decide_eq_true hle) imm,
      fun hlt => branchIf_notTaken hidle (decide_eq_false (not_le.mpr hlt)) imm⟩
  case bgtz =>
    rw [exec_bgtz]
    exact ⟨fun hlt => branchIf_taken hidle (decide_eq_true hlt) imm,
      fun hle => branchIf_notTaken hidle (decide_eq_false (not_lt.mpr hle)) imm⟩

end Sys2Proof.Machine
end

section
/-! What phase 2 leaves of a state, and the step of an illegal word settled from it: the raise is
the only effect after phase 2 (40_cycle.md rule R102, 60_exceptions.md rules R161 and R165). -/

namespace Sys2Proof.Machine

/-- Phase 2 zeroes x[0], whatever it held (R22, R102). -/
theorem reg_zero_advance (s : State) : (advance s).reg 0 = 0 := by
  rw [reg_advance, if_pos rfl]

/-- Phase 2 writes no register but x[0] (R102). -/
theorem keepsRegsBut_zero_advance (s : State) : KeepsRegsBut 0 s (advance s) := fun q hq => by
  rw [reg_advance, if_neg hq]

/-- Settles O33: the step raises on the state phase 2 leaves (`step_illegal`), and a raise changes
only the record of the error (`onlyError_raise`). What remains is what phase 2 did to the registers
and the PC; memory, the outputs and the pending redirect are by definition those of `s`. -/
theorem anIllegalWordEndsTheRun : Obligations.AnIllegalWordEndsTheRun := by
  intro s r hf hd
  obtain ⟨hraised, hregs, hmem, ⟨hpc, hvalid, htarget⟩, hadm⟩ :=
    onlyError_raise (.illegalInstruction s.wordAtPc) (advance s)
  have hzero := (hregs 0).trans (reg_zero_advance s)
  have hkept : KeepsRegsBut 0 s _ := fun q hq =>
    (hregs q).trans (keepsRegsBut_zero_advance s q hq)
  exact ⟨_, step_illegal hf hd, hraised, hpc, hzero, hkept, hmem, hvalid, htarget, hadm⟩

end Sys2Proof.Machine
end

section
/-! How the words no earlier section decodes decode, and the round trip through the encoder
(30_encoding.md rules R61, R62, R64 and R65). -/

namespace Sys2Proof

theorem decode_sub (rd rs rt : Reg) (sh : BitVec 5) :
    decode (wordR rs rt rd sh 0x22#6) = .ok (.sub rd rs rt) := by
  simp [decode_wordR, decodeRType]

theorem decode_lhu (rt rs : Reg) (imm : Imm16) :
    decode (wordI 0x25#6 rs rt imm) = .ok (.lhu rt rs imm) := by
  simp [decode_wordI, decodeOp]

theorem decode_sb (rt rs : Reg) (imm : Imm16) :
    decode (wordI 0x28#6 rs rt imm) = .ok (.sb rt rs imm) := by
  simp [decode_wordI, decodeOp]

theorem decode_sh (rt rs : Reg) (imm : Imm16) :
    decode (wordI 0x29#6 rs rt imm) = .ok (.sh rt rs imm) := by
  simp [decode_wordI, decodeOp]

theorem decode_sw (rt rs : Reg) (imm : Imm16) :
    decode (wordI 0x2B#6 rs rt imm) = .ok (.sw rt rs imm) := by
  simp [decode_wordI, decodeOp]

theorem decode_j (target : Target26) : decode (wordJ 0x02#6 target) = .ok (.j target) := by
  simp [decode_wordJ, decodeOp]

theorem decode_jal (target : Target26) : decode (wordJ 0x03#6 target) = .ok (.jal target) := by
  simp [decode_wordJ, decodeOp]

/-- The sentinel is recognised ahead of the table (R69, R103). -/
theorem decode_haltWord : decode Config.haltWord = .ok .halt := if_pos rfl

/-- A shift count below 32 fits its 5-bit field (R66, R120). -/
theorem toNat_shamt {shamt : Nat} (h : shamt < 32) : (BitVec.ofNat 5 shamt).toNat = shamt := by
  rw [BitVec.toNat_ofNat, Nat.mod_eq_of_lt h]

/-- Settles O46: each instruction by the lemma that decodes its word. Only the two shifts use
well-formedness, for their count to survive its 5-bit field. -/
theorem decodeOfEncodeIsTheInstruction : Obligations.DecodeOfEncodeIsTheInstruction := by
  intro i hwf
  cases i with
  | sll rd rt shamt =>
    have hlt : shamt < 32 := of_decide_eq_true hwf
    rw [encode, decode_sll, toNat_shamt hlt]
  | srl rd rt shamt =>
    have hlt : shamt < 32 := of_decide_eq_true hwf
    rw [encode, decode_srl, toNat_shamt hlt]
  | jr rs => exact decode_jr rs 0 0 0
  | add rd rs rt => exact decode_add rd rs rt 0
  | addu rd rs rt => exact decode_addu rd rs rt 0
  | sub rd rs rt => exact decode_sub rd rs rt 0
  | subu rd rs rt => exact decode_subu rd rs rt 0
  | and rd rs rt => exact decode_and rd rs rt 0
  | or rd rs rt => exact decode_or rd rs rt 0
  | nor rd rs rt => exact decode_nor rd rs rt 0
  | slt rd rs rt => exact decode_slt rd rs rt 0
  | sltu rd rs rt => exact decode_sltu rd rs rt 0
  | beq rs rt imm => exact decode_beq rs rt imm
  | bne rs rt imm => exact decode_bne rs rt imm
  | blez rs imm => exact decode_blez rs 0 imm
  | bgtz rs imm => exact decode_bgtz rs 0 imm
  | addi rt rs imm => exact decode_addi rt rs imm
  | addiu rt rs imm => exact decode_addiu rt rs imm
  | slti rt rs imm => exact decode_slti rt rs imm
  | sltiu rt rs imm => exact decode_sltiu rt rs imm
  | andi rt rs imm => exact decode_andi rt rs imm
  | ori rt rs imm => exact decode_ori rt rs imm
  | lui rt imm => exact decode_lui rt 0 imm
  | lw rt rs imm => exact decode_lw rt rs imm
  | lbu rt rs imm => exact decode_lbu rt rs imm
  | lhu rt rs imm => exact decode_lhu rt rs imm
  | sb rt rs imm => exact decode_sb rt rs imm
  | sh rt rs imm => exact decode_sh rt rs imm
  | sw rt rs imm => exact decode_sw rt rs imm
  | j target => exact decode_j target
  | jal target => exact decode_jal target
  | halt => exact decode_haltWord

end Sys2Proof
end

section
/-! What one instruction and one step can do to the outputs and to memory, read off `exec_effect`
and `step_stepped` once; then the invariant settled from it (10_state.md rules R26 and R27,
60_exceptions.md rule R165). -/

namespace Sys2Proof.Machine

/-- What happens to the termination state, the cause and the diagnostics between two states:
nothing, a clean halt, or one error (R26, R103, R165). -/
inductive OutputChange (s t : State) : Prop
  | kept (h : KeepsRun s t)
  | halted (hterm : t.term = .haltedClean) (hcause : t.cause = s.cause) (hdiags : t.diags = s.diags)
  | raised (d : Diag) (h : Raised d s t)

/-- Phases 2 and 7 leave the outputs alone, so a step changes them as its instruction does. -/
theorem OutputChange.of_phases {s u : State} (h : OutputChange (advance s) u) (slot : Bool) :
    OutputChange s (sequence slot u) := by
  cases h with
  | kept h =>
    obtain ⟨hterm, hcause, hdiags⟩ := h
    exact .kept ⟨by simpa using hterm, by simpa using hcause, by simpa using hdiags⟩
  | halted hterm hcause hdiags =>
    exact .halted (by simpa using hterm) (by simpa using hcause) (by simpa using hdiags)
  | raised d h =>
    obtain ⟨hterm, hcause, hdiags⟩ := h
    exact .raised d ⟨by simpa using hterm, by simpa using hcause, by simpa using hdiags⟩

/-- A request changes none of the outputs (R142). -/
theorem keepsRun_request (req : Option Word) (s : State) : KeepsRun s (request req s) := by
  cases req <;> exact ⟨rfl, rfl, rfl⟩

/-- A control transfer changes none of the outputs, whichever register it wrote first (R141). -/
theorem keepsRun_transfer {i : Instr} {s u : State}
    (hu : u = s ∨ ∃ r v, r ∈ i.writes ∧ u = s.setReg r v) (req : Option Word) :
    KeepsRun s (request req u) := by
  obtain rfl | ⟨r, v, -, rfl⟩ := hu
  · exact keepsRun_request req _
  · exact keepsRun_request req (s.setReg r v)

theorem Effect.outputChange {i : Instr} {s t : State} (h : Effect i s t) : OutputChange s t := by
  cases h with
  | writes | stores => exact .kept ⟨rfl, rfl, rfl⟩
  | overflows | faults => exact .raised _ ⟨rfl, rfl, rfl⟩
  | halts => exact .halted rfl rfl rfl
  | transfers req u _ _ hu => exact .kept (keepsRun_transfer hu req)

/-- A step keeps the outputs, halts cleanly, or raises one error. -/
theorem step_outputChange {s t : State} (h : step s = .next t) : OutputChange s t := by
  cases step_stepped h with
  | fetchFault | illegal => exact .raised _ ⟨rfl, rfl, rfl⟩
  | executed _ _ _ _ he => exact he.outputChange.of_phases s.pendValid

@[simp] theorem request_mem (req : Option Word) (s : State) : (request req s).mem = s.mem := by
  cases req <;> rfl

/-- An instruction changes memory by at most one write. -/
theorem Effect.mem_cases {i : Instr} {s t : State} (h : Effect i s t) :
    t.mem = s.mem ∨ i.isStore = true ∧ ∃ ea w v, t.mem = s.mem.write ea w v := by
  cases h with
  | writes | overflows | faults | halts => exact .inl rfl
  | stores ea w v hi => exact .inr ⟨hi, ea, w, v, rfl⟩
  | transfers req u _ _ hu =>
    obtain rfl | ⟨r, v, -, rfl⟩ := hu <;> exact .inl (request_mem req _)

/-- Every step keeps the memory's canonical form. -/
theorem step_mem_wf {s t : State} (hwf : s.mem.wf = true) (h : step s = .next t) :
    t.mem.wf = true := by
  cases step_stepped h with
  | fetchFault | illegal => exact hwf
  | executed i u _ _ he =>
    rw [sequence_mem]
    obtain hmem | ⟨-, ea, w, v, hmem⟩ := he.mem_cases
    · rwa [hmem]
    · rw [hmem]
      exact write_wf hwf ea w v

/-- While Running, agreement says that there is no cause and no event (R27, R167). -/
theorem outputsAgree_running_iff {s : State} (hr : s.term = .running) :
    s.outputsAgree ↔ s.cause = .none ∧ s.diags = [] := by
  simp [State.outputsAgree, hr]

theorem Diag.cause_ne_none (d : Diag) : d.cause ≠ .none := by
  cases d <;> simp [Diag.cause]

/-- Every change of the outputs from Running leaves them in agreement. -/
theorem OutputChange.outputsAgree {s t : State} (h : OutputChange s t) (hr : s.term = .running)
    (hs : s.outputsAgree) : t.outputsAgree := by
  obtain ⟨hnone, hempty⟩ := (outputsAgree_running_iff hr).mp hs
  cases h with
  | kept h =>
    obtain ⟨hterm, hcause, hdiags⟩ := h
    exact (outputsAgree_running_iff (hterm.trans hr)).mpr
      ⟨hcause.trans hnone, hdiags.trans hempty⟩
  | halted hterm hcause hdiags =>
    simp [State.outputsAgree, hterm, hcause.trans hnone, hdiags.trans hempty]
  | raised d h =>
    obtain ⟨hterm, hcause, hdiags⟩ := h
    simp [State.outputsAgree, hterm, hcause, hdiags, hempty, Diag.cause_ne_none]

/-- Settles O40: memory by `step_mem_wf`; a step starts Running, where agreement means no cause and
no event, and each way it can change the outputs keeps agreement. -/
theorem stepKeepsTheInvariant : Obligations.StepKeepsTheInvariant := by
  rintro s t ⟨hwf, hagree⟩ h
  exact ⟨step_mem_wf hwf h,
    (step_outputChange h).outputsAgree (running_of_step_next h) hagree⟩

/-- Settles O41: the outputs of reset agree by computation; a launch differs from reset in memory
and admission only, and loading keeps the canonical form (`load_wf`). -/
theorem resetAndLaunchMeetTheInvariant : Obligations.ResetAndLaunchMeetTheInvariant := by
  have hagree : State.reset.outputsAgree := by decide
  exact ⟨⟨rfl, hagree⟩, fun c rest image hwf hlen => ⟨load_wf hwf (by omega), hagree⟩⟩

/-- Settles O35: into HaltedError only by a raise, and neither of the other two changes of the
outputs touches the cause or the events. -/
theorem anErrorHaltEmitsExactlyOneDiagnostic :
    Obligations.AnErrorHaltEmitsExactlyOneDiagnostic := by
  intro s t h
  have hr : s.term = .running := running_of_step_next h
  cases step_outputChange h with
  | kept h =>
    obtain ⟨hterm, hcause, hdiags⟩ := h
    have hne : t.term ≠ .haltedError := by simp [hterm, hr]
    exact ⟨fun he => absurd he hne, fun _ => ⟨hcause, hdiags⟩⟩
  | halted hterm hcause hdiags =>
    have hne : t.term ≠ .haltedError := by simp [hterm]
    exact ⟨fun he => absurd he hne, fun _ => ⟨hcause, hdiags⟩⟩
  | raised d h =>
    obtain ⟨hterm, -, -⟩ := id h
    exact ⟨fun _ => ⟨d, h⟩, fun hne => absurd hterm hne⟩

end Sys2Proof.Machine
end

section
/-! The bits of a word that its instruction uses (30_encoding.md rule R63, D14): what each mask of
the opcode table leaves of a word of each format, and what the decoder's answer says of the word. -/

namespace Sys2Proof

/-! ### The masks, on the three formats (R62) -/

theorem regBits_zero : regBits 0 = 0#5 := rfl

/-- Masking an R-type word masks each of its fields. -/
theorem wordR_and (rs rt rd : Reg) (sh : BitVec 5) (f mOp mFunct : BitVec 6)
    (mRs mRt mRd mSh : BitVec 5) :
    wordR rs rt rd sh f &&& (mOp ++ mRs ++ mRt ++ mRd ++ mSh ++ mFunct) =
      (0#6 &&& mOp) ++ (regBits rs &&& mRs) ++ (regBits rt &&& mRt) ++ (regBits rd &&& mRd) ++
        (sh &&& mSh) ++ (f &&& mFunct) := by
  iterate 5
    refine BitVec.and_append.trans (congrArg (· ++ _) ?_)
  rfl

/-- Masking an I-type word masks each of its fields. -/
theorem wordI_and (op : BitVec 6) (rs rt : Reg) (imm : Imm16) (mOp : BitVec 6)
    (mRs mRt : BitVec 5) (mImm : BitVec 16) :
    wordI op rs rt imm &&& (mOp ++ mRs ++ mRt ++ mImm) =
      (op &&& mOp) ++ (regBits rs &&& mRs) ++ (regBits rt &&& mRt) ++ (imm &&& mImm) := by
  iterate 3
    refine BitVec.and_append.trans (congrArg (· ++ _) ?_)
  rfl

/-- The used bits of a shift: all but rs. -/
theorem wordR_and_without_rs (rs rt rd : Reg) (sh : BitVec 5) (f : BitVec 6) :
    wordR rs rt rd sh f &&& 0xFC1FFFFF = wordR 0 rt rd sh f := by
  refine (wordR_and rs rt rd sh f (.allOnes 6) (.allOnes 6) 0#5 (.allOnes 5) (.allOnes 5)
    (.allOnes 5)).trans ?_
  simp only [wordR, regBits_zero, BitVec.and_allOnes, BitVec.and_zero]

/-- The used bits of a three-register instruction: all but shamt. -/
theorem wordR_and_without_shamt (rs rt rd : Reg) (sh : BitVec 5) (f : BitVec 6) :
    wordR rs rt rd sh f &&& 0xFFFFF83F = wordR rs rt rd 0 f := by
  refine (wordR_and rs rt rd sh f (.allOnes 6) (.allOnes 6) (.allOnes 5) (.allOnes 5)
    (.allOnes 5) 0#5).trans ?_
  simp only [wordR, BitVec.and_allOnes, BitVec.and_zero, BitVec.ofNat_eq_ofNat]

/-- The used bits of jr: op, rs and funct. -/
theorem wordR_and_only_rs (rs rt rd : Reg) (sh : BitVec 5) (f : BitVec 6) :
    wordR rs rt rd sh f &&& 0xFFE0003F = wordR rs 0 0 0 f := by
  refine (wordR_and rs rt rd sh f (.allOnes 6) (.allOnes 6) (.allOnes 5) 0#5 0#5 0#5).trans ?_
  simp only [wordR, regBits_zero, BitVec.and_allOnes, BitVec.and_zero, BitVec.ofNat_eq_ofNat]

/-- The used bits of blez and bgtz: all but rt. -/
theorem wordI_and_without_rt (op : BitVec 6) (rs rt : Reg) (imm : Imm16) :
    wordI op rs rt imm &&& 0xFFE0FFFF = wordI op rs 0 imm := by
  refine (wordI_and op rs rt imm (.allOnes 6) (.allOnes 5) 0#5 (.allOnes 16)).trans ?_
  simp only [wordI, regBits_zero, BitVec.and_allOnes, BitVec.and_zero]

/-- The used bits of lui: all but rs. -/
theorem wordI_and_without_rs (op : BitVec 6) (rs rt : Reg) (imm : Imm16) :
    wordI op rs rt imm &&& 0xFC1FFFFF = wordI op 0 rt imm := by
  refine (wordI_and op rs rt imm (.allOnes 6) 0#5 (.allOnes 5) (.allOnes 16)).trans ?_
  simp only [wordI, regBits_zero, BitVec.and_allOnes, BitVec.and_zero]

/-- Where every bit is used, the mask leaves the whole word. -/
theorem and_all_used (w : Word) : w &&& 0xFFFFFFFF = w := BitVec.and_allOnes

/-! ### The decoder's answer says what the word is -/

/-- The instruction is well formed, and its encoding is the word with its ignored fields cleared. -/
abbrev EncodesUsedBits (w : Word) (i : Instr) : Prop := i.wf = true ∧ encode i = w &&& i.row.used

/-- The 5-bit shift count of a word is at most 31 (R61). -/
theorem shamtField_lt (w : Word) : shamtField w < 32 := (w.extractLsb' 6 5).isLt

theorem ofNat_shamtField (w : Word) : BitVec.ofNat 5 (shamtField w) = w.extractLsb' 6 5 :=
  (BitVec.ofNat_toNat 5 _).trans (BitVec.setWidth_eq _)

section
variable {w : Word} (hop : opField w = 0#6) {f : BitVec 6} (hf : functField w = f)
include hop hf

/-- An R-type word is the word of its fields, its function code named. -/
theorem eq_wordR_of_funct :
    w = wordR (rsField w) (rtField w) (rdField w) (w.extractLsb' 6 5) f := by
  rw [← hf, wordR_of_fields w hop]

theorem encode_shift_fields : wordR 0 (rtField w) (rdField w) (BitVec.ofNat 5 (shamtField w)) f =
    w &&& 0xFC1FFFFF := by
  rw [ofNat_shamtField, ← wordR_and_without_rs (rsField w), ← eq_wordR_of_funct hop hf]

theorem encode_register_fields :
    wordR (rsField w) (rtField w) (rdField w) 0 f = w &&& 0xFFFFF83F := by
  rw [← wordR_and_without_shamt _ _ _ (w.extractLsb' 6 5), ← eq_wordR_of_funct hop hf]

theorem encode_jr_fields : wordR (rsField w) 0 0 0 f = w &&& 0xFFE0003F := by
  rw [← wordR_and_only_rs _ (rtField w) (rdField w) (w.extractLsb' 6 5),
    ← eq_wordR_of_funct hop hf]

end

/-- The cases stand in the order of the inner dispatch (R65): the two shifts, jr, and the nine
instructions of three registers. -/
theorem encodesUsedBits_of_decodeRType {w : Word} (hop : opField w = 0#6) {i : Instr}
    (h : decodeRType w = .ok i) : EncodesUsedBits w i := by
  have hshift {f : BitVec 6} (hf : functField w = f) := encode_shift_fields hop hf
  have hreg {f : BitVec 6} (hf : functField w = f) := encode_register_fields hop hf
  have hcount : decide (shamtField w < 32) = true := decide_eq_true (shamtField_lt w)
  unfold decodeRType at h
  split at h <;> cases h
  iterate 2
    next hf => exact ⟨hcount, hshift hf⟩
  next hf => exact ⟨rfl, encode_jr_fields hop hf⟩
  iterate 9
    next hf => exact ⟨rfl, hreg hf⟩

section
variable {w : Word} {op : BitVec 6} (hop : opField w = op)
include hop

theorem encode_jump_fields : wordJ op (targetField w) = w &&& 0xFFFFFFFF := by
  rw [and_all_used, ← hop, wordJ_of_fields]

theorem encode_immediate_fields :
    wordI op (rsField w) (rtField w) (immField w) = w &&& 0xFFFFFFFF := by
  rw [and_all_used, ← hop, wordI_of_fields]

theorem encode_branchOnZero_fields :
    wordI op (rsField w) 0 (immField w) = w &&& 0xFFE0FFFF := by
  rw [← wordI_and_without_rt _ _ (rtField w), ← hop, wordI_of_fields]

theorem encode_lui_fields : wordI op 0 (rtField w) (immField w) = w &&& 0xFC1FFFFF := by
  rw [← wordI_and_without_rs _ (rsField w), ← hop, wordI_of_fields]

end

/-- The cases stand in the order of the outer dispatch (R65), a run of cases for each set of used
fields. -/
theorem encodesUsedBits_of_decodeOp {w : Word} {i : Instr} (h : decodeOp w = .ok i) :
    EncodesUsedBits w i := by
  unfold decodeOp at h
  split at h
  next hop => exact encodesUsedBits_of_decodeRType hop h
  all_goals cases h
  iterate 2
    next hop => exact ⟨rfl, encode_jump_fields hop⟩
  iterate 2
    next hop => exact ⟨rfl, encode_immediate_fields hop⟩
  iterate 2
    next hop => exact ⟨rfl, encode_branchOnZero_fields hop⟩
  iterate 6
    next hop => exact ⟨rfl, encode_immediate_fields hop⟩
  next hop => exact ⟨rfl, encode_lui_fields hop⟩
  iterate 6
    next hop => exact ⟨rfl, encode_immediate_fields hop⟩

/-- Settles O47: the sentinel uses every bit; any other word by the fields of its format, level by
level of the decoder. -/
theorem encodeOfDecodeKeepsTheUsedBits : Obligations.EncodeOfDecodeKeepsTheUsedBits := by
  intro w i h
  by_cases hw : w = Config.haltWord
  · rw [hw, decode_haltWord] at h
    cases h
    exact ⟨rfl, by rw [hw]; exact (and_all_used _).symm⟩
  · rw [decode, if_neg hw] at h
    exact encodesUsedBits_of_decodeOp h

end Sys2Proof
end

section
/-! Which words the decoder rejects, by the numbers of their fields, and the rows of the opcode
table (30_encoding.md rules R64 and R67). -/

namespace Sys2Proof

/-! ### The rejected words -/

/-- The 44 primary opcodes that R67 lists. -/
abbrev IllegalOp (op : Nat) : Prop :=
  op = 0x01 ∨ op = 0x0E ∨ (0x10 ≤ op ∧ op ≤ 0x22) ∨ op = 0x26 ∨ op = 0x27 ∨ op = 0x2A ∨ 0x2C ≤ op

/-- The 52 function codes that R67 lists. -/
abbrev IllegalFunct (funct : Nat) : Prop :=
  funct = 0x01 ∨ (0x03 ≤ funct ∧ funct ≤ 0x07) ∨ (0x09 ≤ funct ∧ funct ≤ 0x1F) ∨
    funct = 0x26 ∨ funct = 0x28 ∨ funct = 0x29 ∨ 0x2C ≤ funct

/-- A decoded word is no illegal one. -/
theorem exists_ok_eq_error_iff {i : Instr} {p : Prop} (hp : ¬ p) :
    (∃ r, (.ok i : Except Reject Instr) = .error r) ↔ p :=
  iff_of_false (fun ⟨_, h⟩ => nomatch h) hp

/-- The inner dispatch rejects exactly the listed function codes. -/
theorem decodeRType_error_iff (w : Word) :
    (∃ r, decodeRType w = .error r) ↔ IllegalFunct (functField w).toNat := by
  unfold decodeRType
  split
  iterate 12
    next hf => exact exists_ok_eq_error_iff (hf ▸ by decide)
  next =>
    refine iff_of_true ⟨_, rfl⟩ ?_
    simp only [imp_false, ← BitVec.toNat_inj, BitVec.toNat_ofNat] at *
    omega

/-- The outer dispatch rejects exactly the listed opcodes, and the listed function codes of op 0. -/
theorem decodeOp_error_iff (w : Word) : (∃ r, decodeOp w = .error r) ↔
    IllegalOp (opField w).toNat ∨ ((opField w).toNat = 0 ∧ IllegalFunct (functField w).toNat) := by
  unfold decodeOp
  split
  next hop => simp [hop, decodeRType_error_iff]
  iterate 19
    next hop => exact exists_ok_eq_error_iff (by simp [hop])
  next =>
    refine iff_of_true ⟨_, rfl⟩ (.inl ?_)
    simp only [imp_false, ← BitVec.toNat_inj, BitVec.toNat_ofNat] at *
    omega

theorem toNat_opField (w : Word) : (opField w).toNat = w.toNat / 2 ^ 26 := by
  have hlt : w.toNat < 2 ^ 32 := w.isLt
  rw [opField, BitVec.extractLsb'_toNat, Nat.shiftRight_eq_div_pow]
  omega

theorem toNat_functField (w : Word) : (functField w).toNat = w.toNat % 2 ^ 6 :=
  BitVec.extractLsb'_toNat 0 6 w

/-- Every word but the sentinel goes to the outer dispatch. -/
theorem decode_of_ne_haltWord {w : Word} (hw : w ≠ Config.haltWord) : decode w = decodeOp w :=
  if_neg hw

/-- Settles O49: the sentinel decodes, and any other word is rejected as its two dispatches say,
read as numbers. -/
theorem theIllegalWordsAreThoseListed : Obligations.TheIllegalWordsAreThoseListed := by
  rintro w op funct rfl rfl
  rw [← toNat_opField, ← toNat_functField]
  by_cases hw : w = Config.haltWord
  · rw [hw, decode_haltWord]
    exact exists_ok_eq_error_iff fun ⟨hne, _⟩ => hne rfl
  · rw [decode_of_ne_haltWord hw, decodeOp_error_iff]
    exact (and_iff_right hw).symm

/-! ### The rows of the table -/

theorem row_mem_opcodeTable {i : Instr} (hi : i ≠ .halt) : i.row ∈ opcodeTable := by
  cases i with
  | halt => exact absurd rfl hi
  | _ => simp [opcodeTable, rTypeRows, opRows, Instr.row]

/-- A row selects by bits that its instruction's rule counts as used. -/
theorem used_and_mask : ∀ row ∈ opcodeTable, row.used &&& row.mask = row.mask := by
  decide

/-- The encoding of an instruction hits the instruction's row, by the format of its word. -/
theorem encode_hits (i : Instr) : i.row.hit (encode i) = true := by
  cases i with
  | sll | srl | jr | add | addu | sub | subu | and | or | nor | slt | sltu => exact wordR_hits ..
  | beq | bne | blez | bgtz | addi | addiu | slti | sltiu | andi | ori | lui | lw | lbu | lhu | sb
  | sh | sw => exact wordI_hits ..
  | j | jal => exact wordJ_hits ..
  | halt => exact Laws.RowHit.halt

/-- A decoded word hits its instruction's row: the encoding does, and differs from the word in
ignored bits only. -/
theorem hit_of_decode {w : Word} {i : Instr} (hi : i ≠ .halt) (h : decode w = .ok i) :
    i.row.hit w = true := by
  obtain ⟨-, hused⟩ := encodeOfDecodeKeepsTheUsedBits w i h
  have henc : encode i &&& i.row.mask = i.row.pattern := beq_iff_eq.mp (encode_hits i)
  rw [hused, BitVec.and_assoc, used_and_mask _ (row_mem_opcodeTable hi)] at henc
  exact beq_iff_eq.mpr henc

/-- Two rows that one word hits agree where both select. -/
theorem patterns_agree_of_hit {row row' : Row} {w : Word} (h : row.hit w = true)
    (h' : row'.hit w = true) : row.pattern &&& row'.mask = row'.pattern &&& row.mask := by
  rw [← beq_iff_eq.mp h, ← beq_iff_eq.mp h', BitVec.and_assoc, BitVec.and_assoc,
    BitVec.and_comm row.mask]

/-- Rows of the table that agree where both select are one row. -/
theorem eq_of_patterns_agree : ∀ row ∈ opcodeTable, ∀ row' ∈ opcodeTable,
    row.pattern &&& row'.mask = row'.pattern &&& row.mask → row = row' := by
  decide

/-- The function-code rows select on op and funct, which are 0 and a legal function code. -/
theorem rTypeRows_select : ∀ row ∈ rTypeRows, opField row.mask = .allOnes 6 ∧
    functField row.mask = .allOnes 6 ∧ opField row.pattern = 0#6 ∧
    ¬ IllegalFunct (functField row.pattern).toNat := by
  decide

/-- The primary-opcode rows select on op, which is a legal opcode other than 0. -/
theorem opRows_select : ∀ row ∈ opRows, opField row.mask = .allOnes 6 ∧
    opField row.pattern ≠ 0#6 ∧ ¬ IllegalOp (opField row.pattern).toNat := by
  decide

theorem opField_of_hit {row : Row} {w : Word} (hmask : opField row.mask = .allOnes 6)
    (h : row.hit w = true) : opField w = opField row.pattern := by
  rw [← beq_iff_eq.mp h]
  simp only [opField, BitVec.extractLsb'_and] at hmask ⊢
  rw [hmask, BitVec.and_allOnes]

theorem functField_of_hit {row : Row} {w : Word} (hmask : functField row.mask = .allOnes 6)
    (h : row.hit w = true) : functField w = functField row.pattern := by
  rw [← beq_iff_eq.mp h]
  simp only [functField, BitVec.extractLsb'_and] at hmask ⊢
  rw [hmask, BitVec.and_allOnes]

/-- A word that hits a row of the table is not rejected by the two dispatches. -/
theorem decodeOp_ne_error_of_hit {row : Row} {w : Word} (hrow : row ∈ opcodeTable)
    (h : row.hit w = true) : ¬ ∃ r, decodeOp w = .error r := by
  rw [decodeOp_error_iff]
  rcases List.mem_append.mp hrow with hR | hOp
  · obtain ⟨hop, hfunct, hzero, hlegal⟩ := rTypeRows_select row hR
    rw [opField_of_hit hop h, functField_of_hit hfunct h, hzero]
    simpa using hlegal
  · obtain ⟨hop, hne, hlegal⟩ := opRows_select row hOp
    have hne' : (opField row.pattern).toNat ≠ 0 := fun e => hne (BitVec.eq_of_toNat_eq e)
    rw [opField_of_hit hop h]
    exact not_or.mpr ⟨hlegal, fun ⟨hz, _⟩ => hne' hz⟩

/-- Settles O48: a decoded word hits its row because its encoding does; a word that hits a row is
not rejected; and two rows that one word hits agree where both select, which no two different rows
of the table do. -/
theorem decodingFollowsTheOpcodeTable : Obligations.DecodingFollowsTheOpcodeTable := by
  intro w hw
  refine ⟨fun i h => ?_, fun r h row hrow => ?_, fun row hrow row' hrow' h h' => ?_⟩
  · have hi : i ≠ .halt := by
      rintro rfl
      obtain ⟨-, hused⟩ := encodeOfDecodeKeepsTheUsedBits w _ h
      exact hw (hused.trans (and_all_used w)).symm
    exact ⟨row_mem_opcodeTable hi, hit_of_decode hi h⟩
  · rw [decode_of_ne_haltWord hw] at h
    exact Bool.eq_false_iff.mpr fun hit => decodeOp_ne_error_of_hit hrow hit ⟨r, h⟩
  · exact eq_of_patterns_agree row hrow row' hrow' (patterns_agree_of_hit h h')

/-- Settles O50: each word by evaluating the decoder on it. -/
theorem sampleWordsDecode : Obligations.SampleWordsDecode := by
  unfold Obligations.SampleWordsDecode
  decide

end Sys2Proof
end

section
/-! The subtract checker and sub, both checkers by their rule on bit 31 (00_scope.md rule R10,
41_register_alu.md rule R113, D13). -/

namespace Sys2Proof.Machine

theorem exec_sub (rd rs rt : Reg) (s : State) : exec (.sub rd rs rt) s =
    writeChecked rd (s.reg rs - s.reg rt)
      (ovfSub (s.reg rs) (s.reg rt) (s.reg rs - s.reg rt)) (s.reg rs) (s.reg rt) s := rfl

/-- The sign of a word is its bit 31 (R10). -/
theorem msb_eq_bit31 (a : Word) : a.msb = a.getLsbD 31 := BitVec.msb_eq_getLsbD_last a

theorem ovfAdd_iff_bit31 (a b r : Word) : ovfAdd a b r = true ↔
    a.getLsbD 31 = b.getLsbD 31 ∧ r.getLsbD 31 ≠ a.getLsbD 31 := by
  rw [ovfAdd, Bool.and_eq_true, beq_iff_eq, bne_iff_ne, msb_eq_bit31, msb_eq_bit31, msb_eq_bit31]

theorem ovfSub_iff_bit31 (a b r : Word) : ovfSub a b r = true ↔
    a.getLsbD 31 ≠ b.getLsbD 31 ∧ r.getLsbD 31 ≠ a.getLsbD 31 := by
  rw [ovfSub, Bool.and_eq_true, bne_iff_ne, bne_iff_ne, msb_eq_bit31, msb_eq_bit31, msb_eq_bit31]

/-- The signed overflow of a difference is the library's `ssubOverflow` (R10, D13). -/
theorem ovfSub_eq_ssubOverflow (a b : Word) : ovfSub a b (a - b) = a.ssubOverflow b := by
  rw [BitVec.ssubOverflow_eq, ovfSub]
  cases a.msb <;> cases b.msb <;> simp

/-- The subtract checker on the wrapped difference fires exactly when the signed difference is out
of range (R10, D13). -/
theorem ovfSub_sub_iff (a b : Word) : ovfSub a b (a - b) = true ↔
    ¬ (-2 ^ 31 ≤ a.toInt - b.toInt ∧ a.toInt - b.toInt < 2 ^ 31) := by
  rw [ovfSub_eq_ssubOverflow, BitVec.ssubOverflow, Bool.or_eq_true, decide_eq_true_iff,
    decide_eq_true_iff]
  omega

/-- Being outside the signed range is falling below it or reaching 2^31. -/
theorem not_in_signed_range_iff (x : Int) :
    ¬ (-2 ^ 31 ≤ x ∧ x < 2 ^ 31) ↔ x < -2 ^ 31 ∨ 2 ^ 31 ≤ x := by
  omega

/-- Settles O3: the two rules on bit 31, and each checker on the wrapped result. -/
theorem overflowCheckersAreExact : Obligations.OverflowCheckersAreExact :=
  ⟨ovfAdd_iff_bit31, ovfSub_iff_bit31,
    fun a b => (ovfAdd_add_iff a b).trans (not_in_signed_range_iff _),
    fun a b => (ovfSub_sub_iff a b).trans (not_in_signed_range_iff _)⟩

/-- Settles O9: sub is a checked write of the wrapped difference, whose check `ovfSub_sub_iff` says
fires exactly when the signed difference is out of range. -/
theorem subWritesThenRaisesOnOverflow : Obligations.SubWritesThenRaisesOnOverflow := by
  intro rd rs rt sh s
  obtain ⟨t, hexec, hreg, hframe, hraise⟩ := writeChecked_raises_iff
    (ovfSub_sub_iff (s.reg rs) (s.reg rt)) rd (s.reg rs - s.reg rt) (s.reg rs) (s.reg rt) s
  exact ⟨decode_sub rd rs rt sh, t, (exec_sub rd rs rt s).trans hexec,
    by rw [hreg, toNat_sub_eq_emod], hframe, hraise⟩

end Sys2Proof.Machine
end

section
/-! The bytes of memory from an address on, as numbers: what a read of each width is made of, and
what a write of any width leaves (20_memory.md rules R41 to R45 and R54, D7). -/

namespace Sys2Proof.Machine

/-- Byte `k` of memory from `a` on, as a number; addresses are mod 2^32. -/
def Memory.nth (m : Memory) (a : Word) (k : Nat) : Nat :=
  (m.byteAt (a + BitVec.ofNat 32 k).toNat).toNat

theorem nth_zero (m : Memory) (a : Word) : m.nth a 0 = (m.byteAt a.toNat).toNat := by
  rw [Memory.nth, BitVec.add_zero]

theorem nth_lt (m : Memory) (a : Word) (k : Nat) : m.nth a k < 2 ^ 8 := BitVec.isLt _

theorem add_ofNat_add (a : Word) (i j : Nat) :
    a + BitVec.ofNat 32 i + BitVec.ofNat 32 j = a + BitVec.ofNat 32 (i + j) := by
  rw [BitVec.add_assoc, BitVec.ofNat_add]

theorem nth_add (m : Memory) (a : Word) (i k : Nat) :
    m.nth (a + BitVec.ofNat 32 i) k = m.nth a (i + k) := by
  rw [Memory.nth, add_ofNat_add, Memory.nth]

/-- Different small offsets lead to different addresses. -/
theorem add_ofNat_ne (a : Word) {i k : Nat} (hi : i < 2 ^ 32) (hk : k < 2 ^ 32) (h : k ≠ i) :
    a + BitVec.ofNat 32 k ≠ a + BitVec.ofNat 32 i := by
  intro e
  have e' : (BitVec.ofNat 32 k).toNat = (BitVec.ofNat 32 i).toNat :=
    congrArg BitVec.toNat (BitVec.add_right_inj a |>.mp e)
  rw [BitVec.toNat_ofNat, BitVec.toNat_ofNat, Nat.mod_eq_of_lt hk, Nat.mod_eq_of_lt hi] at e'
  exact h e'

/-! ### Reads (R42) -/

theorem toNat_read_byte_nth (m : Memory) (a : Word) : (m.read a .byte).toNat = m.nth a 0 :=
  (toNat_zext32 (by decide) _).trans (nth_zero m a).symm

theorem toNat_read_half_nth (m : Memory) (a : Word) :
    (m.read a .half).toNat = m.nth a 0 * 2 ^ 8 + m.nth a 1 := by
  rw [nth_zero, Memory.read, toNat_zext32 (by decide), toNat_append_byte]
  rfl

theorem toNat_read_word_nth (m : Memory) (a : Word) : (m.read a .word).toNat =
    m.nth a 0 * 2 ^ 24 + m.nth a 1 * 2 ^ 16 + m.nth a 2 * 2 ^ 8 + m.nth a 3 := by
  rw [nth_zero]
  exact toNat_read_word { State.reset with mem := m } a

/-- Byte `k` of a word read is byte `k` of memory, the most significant first (R41). -/
theorem byte_of_read_word (m : Memory) (a : Word) {k : Nat} (hk : k < 4) :
    (m.read a .word).toNat / 2 ^ (8 * (3 - k)) % 2 ^ 8 = m.nth a k := by
  have h0 := nth_lt m a 0
  have h1 := nth_lt m a 1
  have h2 := nth_lt m a 2
  have h3 := nth_lt m a 3
  rw [toNat_read_word_nth]
  interval_cases k <;> omega

/-! ### Writes (R43) -/

/-- The eight bits of a word from bit `k` on, as a number. -/
theorem toNat_extractLsb'_byte (v : Word) (k : Nat) :
    (v.extractLsb' k 8).toNat = v.toNat / 2 ^ k % 2 ^ 8 := by
  rw [BitVec.extractLsb'_toNat, Nat.shiftRight_eq_div_pow]

/-- The bytes from `a` on after a write `i` bytes further: the bytes of the value where the write
covers them, and the old ones elsewhere. -/
theorem nth_write {m : Memory} (h : m.wf = true) (a v : Word) (w : Width) {i k : Nat}
    (hi : i < 4) (hk : k < 4) : (m.write (a + BitVec.ofNat 32 i) w v).nth a k =
      if i ≤ k ∧ k < i + w.bytes then v.toNat / 2 ^ (8 * (w.bytes - 1 - (k - i))) % 2 ^ 8
      else m.nth a k := by
  have hbytes : w.bytes ≤ 4 := by cases w <;> decide
  split
  next hin =>
    obtain ⟨hle, -⟩ := id hin
    have hadd : a + BitVec.ofNat 32 k = a + BitVec.ofNat 32 i + BitVec.ofNat 32 (k - i) := by
      rw [add_ofNat_add, Nat.add_sub_cancel' hle]
    rw [Memory.nth, hadd, byteAt_write_inside h _ v w (by omega), toNat_extractLsb'_byte]
  next hout =>
    rw [Memory.nth, byteAt_write_outside h v w, Memory.nth]
    intro j hj
    rw [add_ofNat_add]
    exact add_ofNat_ne a (by omega) (by omega) (by omega)

/-- The bytes of a write, the most significant first (R43). -/
theorem nth_write_same {m : Memory} (h : m.wf = true) (a v : Word) (w : Width) {j : Nat}
    (hj : j < w.bytes) :
    (m.write a w v).nth a j = v.toNat / 2 ^ (8 * (w.bytes - 1 - j)) % 2 ^ 8 := by
  rw [Memory.nth, byteAt_write_inside h a v w hj, toNat_extractLsb'_byte]

/-- A read after a write of the same bytes gives the low bytes of the value (R45). -/
theorem toNat_read_write_same {m : Memory} (h : m.wf = true) (a v : Word) (w : Width) :
    ((m.write a w v).read a w).toNat = v.toNat % 2 ^ (8 * w.bytes) := by
  have hv : v.toNat < 2 ^ 32 := v.isLt
  cases w with
  | byte =>
    rw [toNat_read_byte_nth, nth_write_same h a v .byte (by decide)]
    simp [Width.bytes]
  | half =>
    rw [toNat_read_half_nth, nth_write_same h a v .half (by decide),
      nth_write_same h a v .half (by decide)]
    simp only [Width.bytes]
    omega
  | word =>
    rw [toNat_read_word_nth, nth_write_same h a v .word (by decide),
      nth_write_same h a v .word (by decide), nth_write_same h a v .word (by decide),
      nth_write_same h a v .word (by decide)]
    simp only [Width.bytes]
    omega

/-! ### Parts of a word (R54) -/

/-- Byte `k` of the word `v` once a write of `b` has replaced the part that starts at byte `i`. -/
def overwrittenByte (v b : Word) (w : Width) (i k : Nat) : Nat :=
  if i ≤ k ∧ k < i + w.bytes then b.toNat / 2 ^ (8 * (w.bytes - 1 - (k - i))) % 2 ^ 8
  else v.toNat / 2 ^ (8 * (3 - k)) % 2 ^ 8

section
variable {m : Memory} (h : m.wf = true) (a v : Word)
include h

theorem toNat_read_byte_of_word {i : Nat} (hi : i < 4) :
    ((m.write a .word v).read (a + BitVec.ofNat 32 i) .byte).toNat =
      v.toNat / 2 ^ (8 * (3 - i)) % 2 ^ 8 := by
  rw [toNat_read_byte_nth, nth_add]
  exact nth_write_same h a v .word hi

theorem toNat_read_half_of_word {i : Nat} (hi : i < 3) :
    ((m.write a .word v).read (a + BitVec.ofNat 32 i) .half).toNat =
      v.toNat / 2 ^ (8 * (2 - i)) % 2 ^ 16 := by
  rw [toNat_read_half_nth, nth_add, nth_add, nth_write_same h a v .word (show i + 0 < 4 by omega),
    nth_write_same h a v .word (show i + 1 < 4 by omega)]
  simp only [Width.bytes]
  interval_cases i <;> omega

/-- A word that a second write overlaps, byte by byte. -/
theorem toNat_read_overwritten_word (b : Word) (w : Width) {i : Nat} (hi : i < 4) :
    (((m.write a .word v).write (a + BitVec.ofNat 32 i) w b).read a .word).toNat =
      overwrittenByte v b w i 0 * 2 ^ 24 + overwrittenByte v b w i 1 * 2 ^ 16 +
        overwrittenByte v b w i 2 * 2 ^ 8 + overwrittenByte v b w i 3 := by
  have hbyte : ∀ k, k < 4 → ((m.write a .word v).write (a + BitVec.ofNat 32 i) w b).nth a k =
      overwrittenByte v b w i k := fun k hk => by
    rw [nth_write (write_wf h a .word v) a b w hi hk, nth_write_same h a v .word hk]
    rfl
  rw [toNat_read_word_nth, hbyte 0 (by decide), hbyte 1 (by decide), hbyte 2 (by decide),
    hbyte 3 (by decide)]

end

/-! ### The statements -/

/-- Settles O17: the access is admitted before and after, and the read is of the bytes written. -/
theorem readAfterWriteReturnsTheValue : Obligations.ReadAfterWriteReturnsTheValue := by
  intro s a v w hwf ha
  exact ⟨_, _, memWrite_admitted ha, memRead_admitted ha, toNat_read_write_same hwf a v w⟩

/-- Settles O18: the parts of a word read, the parts of a word replaced byte by byte, and the frame
of a write (`byteAt_write_outside`). -/
theorem mixedWidthAccessIsBigEndian : Obligations.MixedWidthAccessIsBigEndian := by
  refine ⟨fun m a v h => ?parts, fun m a v b h => ?replaced,
    fun m a b q w h _ hq => byteAt_write_outside h b w hq⟩
  case parts =>
    have hv : v.toNat < 2 ^ 32 := v.isLt
    have hbyte {i : Nat} (hi : i < 4) := toNat_read_byte_of_word h a v hi
    have hhalf {i : Nat} (hi : i < 3) := toNat_read_half_of_word h a v hi
    have hbyte0 := hbyte (i := 0) (by decide)
    have hhalf0 := hhalf (i := 0) (by decide)
    rw [BitVec.add_zero] at hbyte0 hhalf0
    refine ⟨hbyte0.trans ?_, hbyte (i := 1) (by decide), hbyte (i := 2) (by decide),
      (hbyte (i := 3) (by decide)).trans ?_, hhalf0.trans ?_, hhalf (i := 1) (by decide),
      (hhalf (i := 2) (by decide)).trans ?_⟩
    all_goals omega
  case replaced =>
    have hv : v.toNat < 2 ^ 32 := v.isLt
    have hword {i : Nat} (w : Width) (hi : i < 4) := toNat_read_overwritten_word h a v b w hi
    have hbyte0 := hword .byte (i := 0) (by decide)
    have hhalf0 := hword .half (i := 0) (by decide)
    rw [BitVec.add_zero] at hbyte0 hhalf0
    refine ⟨hbyte0.trans ?_, (hword .byte (i := 1) (by decide)).trans ?_,
      (hword .byte (i := 2) (by decide)).trans ?_, (hword .byte (i := 3) (by decide)).trans ?_,
      hhalf0.trans ?_, (hword .half (i := 1) (by decide)).trans ?_,
      (hword .half (i := 2) (by decide)).trans ?_⟩
    all_goals
      norm_num [overwrittenByte, Width.bytes]
      omega

end Sys2Proof.Machine
end

section
/-! What a store does to a state, by its width: the bytes it writes as numbers, the frame outside
them, and the fault of one that is not admitted; then sb, sw and sh, with lhu's halfword and the
default admission beside them (43_load_store.md rules R130 and R133 to R136, 20_memory.md rule R44,
D7, D8, D12). -/

namespace Sys2Proof.Machine

/-! ### The operation each instruction performs -/

theorem exec_lhu (rt rs : Reg) (imm : Imm16) (s : State) :
    exec (.lhu rt rs imm) s = load .half rt (effAddr (s.reg rs) imm) s := rfl

theorem exec_sb (rt rs : Reg) (imm : Imm16) (s : State) :
    exec (.sb rt rs imm) s = store .byte (s.reg rt) (effAddr (s.reg rs) imm) s := rfl

theorem exec_sh (rt rs : Reg) (imm : Imm16) (s : State) :
    exec (.sh rt rs imm) s = store .half (s.reg rt) (effAddr (s.reg rs) imm) s := rfl

theorem exec_sw (rt rs : Reg) (imm : Imm16) (s : State) :
    exec (.sw rt rs imm) s = store .word (s.reg rt) (effAddr (s.reg rs) imm) s := rfl

/-! ### Stores (R130) -/

/-- An admitted store answers the state with its write performed. -/
theorem store_admitted {w : Width} {ea : Word} {s : State} (ha : s.admission.admits ea w = true)
    (v : Word) : store w v ea s = .next { s with mem := s.mem.write ea w v } := by
  rcases store_cases w v ea s with ⟨-, hstore⟩ | ⟨hrefused, -⟩
  · exact hstore
  · exact absurd (ha.symm.trans hrefused) (by decide)

/-- An admitted store changes its own bytes, and nothing else. -/
theorem store_onlyBytes {w : Width} {ea : Word} {s : State} (hwf : s.mem.wf = true)
    (ha : s.admission.admits ea w = true) (v : Word) :
    ∃ t, store w v ea s = .next t ∧ OnlyBytes ea w.bytes s t ∧
      ∀ j, j < w.bytes → (t.byteAt (ea + BitVec.ofNat 32 j)).toNat =
        v.toNat / 2 ^ (8 * (w.bytes - 1 - j)) % 2 ^ 8 :=
  ⟨_, store_admitted ha v,
    ⟨fun _ hq => byteAt_write_outside hwf v w hq, fun _ => rfl, ⟨rfl, rfl, rfl⟩, ⟨rfl, rfl, rfl⟩,
      rfl⟩,
    fun _ hj => nth_write_same hwf ea v w hj⟩

/-- A store that is not admitted raises its fault and changes nothing else, memory included
(D12). -/
theorem store_onlyError {w : Width} {ea : Word} {s : State} (ha : s.admission.admits ea w = false)
    (v : Word) : ∃ t, store w v ea s = .next t ∧ OnlyError (.memoryAccessFault ea w) s t := by
  rcases store_cases w v ea s with ⟨hadmitted, -⟩ | ⟨-, hstore⟩
  · exact absurd (ha.symm.trans hadmitted) (by decide)
  · exact ⟨_, hstore, onlyError_raise ..⟩

/-- Settles O15: sb is a store of the one byte at its address. -/
theorem sbStoresTheLowByte : Obligations.SbStoresTheLowByte := by
  rintro rs rt imm s ea hwf rfl
  rw [exec_sb]
  refine ⟨decode_sb rt rs imm, fun ha => ?_, fun ha => store_onlyError ha _⟩
  obtain ⟨t, hstore, hframe, hbytes⟩ := store_onlyBytes hwf ha (s.reg rt)
  have hbyte := hbytes 0 (by decide)
  rw [BitVec.add_zero] at hbyte
  exact ⟨t, hstore, hframe, hbyte.trans (by simp [Width.bytes])⟩

/-- Settles O16: both are a store of their width, whose bytes `store_onlyBytes` gives; the top byte
of a word needs no reduction mod 2^8. -/
theorem swAndShStoreBigEndian : Obligations.SwAndShStoreBigEndian := by
  rintro rs rt imm s ea hwf rfl
  rw [exec_sw, exec_sh]
  refine ⟨⟨decode_sw rt rs imm, fun ha => ?sw, fun ha => store_onlyError ha _⟩,
    ⟨decode_sh rt rs imm, fun ha => ?sh, fun ha => store_onlyError ha _⟩⟩
  case sw =>
    obtain ⟨t, hstore, hframe, hbytes⟩ := store_onlyBytes hwf ha (s.reg rt)
    have hv : (s.reg rt).toNat < 2 ^ 32 := (s.reg rt).isLt
    have hfirst := hbytes 0 (by decide)
    have hlast := hbytes 3 (by decide)
    rw [BitVec.add_zero] at hfirst
    simp only [Width.bytes] at hfirst hlast
    exact ⟨t, hstore, hframe, by omega, hbytes 1 (by decide), hbytes 2 (by decide),
      hlast.trans (by omega)⟩
  case sh =>
    obtain ⟨t, hstore, hframe, hbytes⟩ := store_onlyBytes hwf ha (s.reg rt)
    have hfirst := hbytes 0 (by decide)
    have hlast := hbytes 1 (by decide)
    rw [BitVec.add_zero] at hfirst
    simp only [Width.bytes] at hlast
    exact ⟨t, hstore, hframe, hfirst, hlast.trans (by omega)⟩

/-! ### lhu and the default admission -/

/-- Settles O14: lhu is a load of the halfword at its address; under the default admission it is
refused as `admits_eq_false_of_sized` says. -/
theorem lhuReadsABigEndianHalfword : Obligations.LhuReadsABigEndianHalfword := by
  rintro rs rt imm s ea rfl
  rw [exec_lhu]
  refine ⟨decode_lhu rt rs imm, fun ha => ?_, fun ha => load_onlyError ha rt,
    fun n hn => admits_eq_false_of_sized hn _ .half⟩
  obtain ⟨t, hload, hframe, hreg⟩ := load_onlyReg ha rt
  refine ⟨t, hload, hframe, ?_⟩
  rw [hreg, toNat_read_half_nth, nth_zero]
  rfl

/-- A clear bit of a word, as a remainder. -/
theorem getLsbD_eq_false_iff (a : Word) (k : Nat) :
    a.getLsbD k = false ↔ a.toNat / 2 ^ k % 2 = 0 := by
  rw [BitVec.getLsbD, Nat.testBit_eq_decide_div_mod_eq, decide_eq_false_iff_not]
  omega

/-- Settles O19: `admits_sized` by remainders, which the low bits give. -/
theorem defaultAdmissionIsAlignedAndInRange : Obligations.DefaultAdmissionIsAlignedAndInRange := by
  intro n a
  simp only [admits_sized, Width.bytes, getLsbD_eq_false_iff]
  refine ⟨?_, ?_, ?_⟩ <;> omega

end Sys2Proof.Machine
end

section
/-! The fetch after a store (20_memory.md rule R52, 70_reset_and_hazards.md rule R186): the step of
a store leaves memory with the write performed and the PC at the next instruction's address. -/

namespace Sys2Proof.Machine

/-- Where a running instruction leaves the PC: at the pending target in a delay slot, after itself
otherwise (R142). -/
theorem sequence_pc_of_running {slot : Bool} {s : State} (h : s.term = .running) :
    (sequence slot s).pc = if slot then s.pendTarget else s.pc := by
  cases slot with
  | true => rw [sequence_slot h]; rfl
  | false => rw [sequence_idle]; rfl

/-- The step of an admitted store: its write is performed, the run goes on, and the PC is that of
the next instruction. -/
theorem step_store {s : State} {i : Instr} {w : Width} {v ea : Word} (hf : s.fetchable)
    (hd : decode s.wordAtPc = .ok i) (hi : exec i (advance s) = store w v ea (advance s))
    (ha : s.admission.admits ea w = true) :
    ∃ t, step s = .next t ∧ t.term = .running ∧ t.mem = s.mem.write ea w v ∧
      t.admission = s.admission ∧ t.pc = if s.pendValid then s.pendTarget else s.pc + 4 := by
  obtain ⟨hr, -, -⟩ := id hf
  have hexec : exec i (advance s) = .next { advance s with mem := s.mem.write ea w v } :=
    hi.trans (store_admitted (s := advance s) ha v)
  refine ⟨_, (step_executes hf hd).trans (congrArg (retire s.pendValid) hexec), ?_, ?_, ?_, ?_⟩
  · rw [sequence_term]; exact hr
  · rw [sequence_mem]
  · rw [sequence_admission]; rfl
  · exact sequence_pc_of_running hr

/-- The instructions that store with a width, and what they store. -/
theorem exec_store {i : Instr} {rt rs : Reg} {imm : Imm16} {w : Width}
    (hi : (w = .word ∧ i = .sw rt rs imm) ∨ (w = .half ∧ i = .sh rt rs imm) ∨
      (w = .byte ∧ i = .sb rt rs imm)) (s : State) :
    exec i s = store w (s.reg rt) (effAddr (s.reg rs) imm) s := by
  rcases hi with ⟨rfl, rfl⟩ | ⟨rfl, rfl⟩ | ⟨rfl, rfl⟩
  · exact exec_sw rt rs imm s
  · exact exec_sh rt rs imm s
  · exact exec_sb rt rs imm s

/-- Settles O20: the word fetched is read from the memory the store's step leaves, byte by byte; a
byte the store covers is the value's, any other the old one. -/
theorem theNextFetchSeesAStore : Obligations.TheNextFetchSeesAStore := by
  rintro s i rt rs imm w ea next hf hwf hd hi rfl ha hnext hal hadm
  obtain ⟨t, hstep, hrun, hmem, hkept, hpc⟩ := step_store hf hd (exec_store hi _) ha
  replace hpc : t.pc = next := hpc.trans hnext.symm
  have hft : t.fetchable := ⟨hrun, hpc ▸ hal, by rw [hkept, hpc, hadm]⟩
  have hword : t.wordAtPc =
      (s.mem.write (effAddr ((advance s).reg rs) imm) w ((advance s).reg rt)).read next .word := by
    rw [← read_pc, hmem, hpc]
  obtain ⟨-, halt, hadt⟩ := id hft
  refine ⟨t, _, hstep, hft, hpc, fetch_word halt hadt, fun k j hk hj hcover => ?covered,
    fun k hk hout => ?old, fun hw hea => ?whole⟩
  case covered =>
    rw [hword, byte_of_read_word _ _ hk, Memory.nth, hcover]
    exact nth_write_same hwf _ _ w hj
  case old =>
    rw [hword, byte_of_read_word _ _ hk, Memory.nth, byteAt_write_outside hwf _ w hout]
    rfl
  case whole =>
    subst hw
    rw [hword, hea]
    exact BitVec.eq_of_toNat_eq
      ((toNat_read_write_same hwf next _ .word).trans (Nat.mod_eq_of_lt (BitVec.isLt _)))

end Sys2Proof.Machine
end

section
/-! j and jal (44_control.md rules R151 and R152): the jump target as the concatenation R66 means,
and the link value as pc_inc (D15, D16). -/

namespace Sys2Proof.Machine

theorem exec_j (target : Target26) (s : State) :
    exec (.j target) s = controlTransfer (some (jumpTarget s.pc target)) s := rfl

theorem exec_jal (target : Target26) (s : State) : exec (.jal target) s =
    controlTransfer (some (jumpTarget s.pc target))
      (s.setReg Config.linkReg (linkValue s.pc)) := rfl

/-- A jump's target is the region of pc_inc over the target field over two zeros (R66, D15). -/
theorem jumpTarget_eq_append (pcInc : Word) (target : Target26) :
    jumpTarget pcInc target = pcInc.extractLsb' 28 4 ++ target ++ 0#2 := by
  refine BitVec.eq_of_getLsbD_eq fun k hk => ?_
  rw [jumpTarget, BitVec.getLsbD_or, BitVec.getLsbD_and, BitVec.getLsbD_append,
    BitVec.getLsbD_append]
  interval_cases k <;> simp

/-- A value appended below shifts the rest up by its width. -/
theorem toNat_append_eq {m n : Nat} (x : BitVec m) (y : BitVec n) :
    (x ++ y).toNat = x.toNat * 2 ^ n + y.toNat := by
  rw [BitVec.toNat_append, ← Nat.shiftLeft_add_eq_or_of_lt y.isLt, Nat.shiftLeft_eq]

/-- A jump's target as a number (R151, D15). -/
theorem jumpTarget_eq_ofNat (pcInc : Word) (target : Target26) : jumpTarget pcInc target =
    BitVec.ofNat 32 (pcInc.toNat / 2 ^ 28 * 2 ^ 28 + 4 * target.toNat) := by
  have hpc : pcInc.toNat < 2 ^ 32 := pcInc.isLt
  have ht : target.toNat < 2 ^ 26 := target.isLt
  refine BitVec.eq_of_toNat_eq ?_
  rw [jumpTarget_eq_append, BitVec.toNat_ofNat, toNat_append_eq, toNat_append_eq,
    BitVec.extractLsb'_toNat, Nat.shiftRight_eq_div_pow, BitVec.toNat_zero]
  omega

/-- jal links pc_inc (R152, D16). -/
theorem linkValue_eq (pcInc : Word) : linkValue pcInc = pcInc := BitVec.sub_add_cancel pcInc 4

/-- Settles O24: both are a control transfer to `jumpTarget`; jal's over the state with its link
written, which changes x[31] only. -/
theorem jAndJalRequestTheirTarget : Obligations.JAndJalRequestTheirTarget := by
  rintro target s dest rfl
  rw [← jumpTarget_eq_ofNat]
  refine ⟨⟨decode_j target, fun hidle => ?j⟩, ⟨decode_jal target, fun hidle => ?jal⟩⟩
  case j =>
    rw [exec_j]
    exact controlTransfer_some_redirects hidle _
  case jal =>
    rw [exec_jal, linkValue_eq]
    have hidle' : (s.setReg Config.linkReg s.pc).pendValid = false := hidle
    obtain ⟨t, hexec, hredirect, hregs⟩ :=
      controlTransfer_some_redirects hidle' (jumpTarget s.pc target)
    exact ⟨t, hexec, hredirect, (hregs 31).trans (reg_setReg_same ..),
      fun q hq => (hregs q).trans (keepsRegsBut_setReg 31 s.pc s q hq)⟩

end Sys2Proof.Machine
end

section
/-! What every instruction keeps: the PC, the launch parameters, every register outside R32's writes
column, and the pending redirect unless a CTI with none pending requests one (10_state.md section 6,
44_control.md rules R141 and R143). -/

namespace Sys2Proof.Machine

@[simp] theorem request_pc (req : Option Word) (s : State) : (request req s).pc = s.pc := by
  cases req <;> rfl

@[simp] theorem request_admission (req : Option Word) (s : State) :
    (request req s).admission = s.admission := by
  cases req <;> rfl

section
variable {i : Instr} {s t : State}

/-- No instruction changes the PC while it executes (R141). -/
theorem Effect.pc_eq (h : Effect i s t) : t.pc = s.pc := by
  cases h with
  | writes | overflows | faults | stores | halts => rfl
  | transfers req u _ _ hu =>
    obtain rfl | ⟨r, v, -, rfl⟩ := hu <;> exact request_pc req _

/-- No instruction changes the launch parameters. -/
theorem Effect.admission_eq (h : Effect i s t) : t.admission = s.admission := by
  cases h with
  | writes | overflows | faults | stores | halts => rfl
  | transfers req u _ _ hu =>
    obtain rfl | ⟨r, v, -, rfl⟩ := hu <;> exact request_admission req _

/-- No instruction writes a register outside its row of R32. -/
theorem Effect.reg_eq (h : Effect i s t) {q : Reg} (hq : q ∉ i.writes) : t.reg q = s.reg q := by
  have hset : ∀ r v, r ∈ i.writes → (s.setReg r v).reg q = s.reg q := fun r v hr =>
    keepsRegsBut_setReg r v s q fun e => hq (e ▸ hr)
  cases h with
  | writes r v hw => exact hset r v hw
  | overflows r v _ _ hw => exact hset r v hw
  | faults | stores | halts => rfl
  | transfers req u _ _ hu =>
    rw [reg_request]
    obtain rfl | ⟨r, v, hw, rfl⟩ := hu
    · rfl
    · exact hset r v hw

/-- Only a CTI, with no redirect pending, can change the pending redirect. -/
theorem Effect.pending_cases (h : Effect i s t) :
    (t.pendValid = s.pendValid ∧ t.pendTarget = s.pendTarget) ∨
    (i.isCti = true ∧ s.pendValid = false ∧ t.pendValid = true) := by
  cases h with
  | writes | overflows | faults | stores | halts => exact .inl ⟨rfl, rfl⟩
  | transfers req u hi hp hu =>
    cases req with
    | none => obtain rfl | ⟨r, v, -, rfl⟩ := hu <;> exact .inl ⟨rfl, rfl⟩
    | some target => exact .inr ⟨hi, hp, rfl⟩

/-- With a redirect pending, an instruction that completes keeps it (R143). -/
theorem Effect.keepsFlow_of_pending (h : Effect i s t) (hp : s.pendValid = true) :
    KeepsFlow s t := by
  obtain ⟨hvalid, htarget⟩ | ⟨-, hidle, -⟩ := h.pending_cases
  · exact ⟨h.pc_eq, hvalid, htarget⟩
  · exact absurd (hp.symm.trans hidle) (by decide)

end

/-- Settles O38: each clause by the lemma that reads it off the six effects. -/
theorem instructionsWriteOnlyTheirTabledState :
    Obligations.InstructionsWriteOnlyTheirTabledState := by
  intro i s t h
  have he : Effect i s t := exec_effect h
  refine ⟨fun r hr => he.reg_eq hr, fun hstore a => ?mem, he.pc_eq, fun hcti => ?pending,
    he.admission_eq⟩
  case mem =>
    obtain hmem | ⟨hi, -⟩ := he.mem_cases
    · rw [State.byteAt, hmem, State.byteAt]
    · exact absurd (hstore.symm.trans hi) (by decide)
  case pending =>
    obtain hkept | ⟨hi, -, -⟩ := he.pending_cases
    · exact hkept
    · exact absurd (hcti.symm.trans hi) (by decide)

/-! ### Which instructions request a redirect (R141) -/

/-- A branch that changes the pending redirect is taken. -/
theorem taken_of_branchIf {taken : Bool} {imm : Imm16} {s t : State}
    (h : branchIf taken imm s = .next t) : t = s ∨ taken = true := by
  cases taken with
  | true => exact .inr rfl
  | false =>
    obtain ⟨-, hrefused⟩ | ⟨-, hnext⟩ := controlTransfer_cases none s
    · exact nomatch hrefused.symm.trans h
    · exact .inl (Host.Outcome.next.inj (hnext.symm.trans h)).symm

/-- A CTI that changed the state is a jump, or a branch whose condition held. -/
theorem requests_of_isCti {i : Instr} {s t : State} (hi : i.isCti = true)
    (h : exec i s = .next t) (hne : t ≠ s) :
    (∃ rs, i = .jr rs) ∨
      (∃ rs rt imm, i = .beq rs rt imm ∧ s.reg rs = s.reg rt) ∨
      (∃ rs rt imm, i = .bne rs rt imm ∧ s.reg rs ≠ s.reg rt) ∨
      (∃ rs imm, i = .blez rs imm ∧ (s.reg rs).toInt ≤ 0) ∨
      (∃ rs imm, i = .bgtz rs imm ∧ 0 < (s.reg rs).toInt) ∨
      (∃ target, i = .j target) ∨ (∃ target, i = .jal target) := by
  cases i with
  | jr rs => exact .inl ⟨rs, rfl⟩
  | beq rs rt imm =>
    have htaken := (taken_of_branchIf h).resolve_left hne
    exact .inr (.inl ⟨rs, rt, imm, rfl, beq_iff_eq.mp htaken⟩)
  | bne rs rt imm =>
    have htaken := (taken_of_branchIf h).resolve_left hne
    exact .inr (.inr (.inl ⟨rs, rt, imm, rfl, bne_iff_ne.mp htaken⟩))
  | blez rs imm =>
    have htaken := (taken_of_branchIf h).resolve_left hne
    exact .inr (.inr (.inr (.inl ⟨rs, imm, rfl, of_decide_eq_true htaken⟩)))
  | bgtz rs imm =>
    have htaken := (taken_of_branchIf h).resolve_left hne
    exact .inr (.inr (.inr (.inr (.inl ⟨rs, imm, rfl, of_decide_eq_true htaken⟩))))
  | j target => exact .inr (.inr (.inr (.inr (.inr (.inl ⟨target, rfl⟩)))))
  | jal target => exact .inr (.inr (.inr (.inr (.inr (.inr ⟨target, rfl⟩)))))
  | sll | srl | add | addu | sub | subu | and | or | nor | slt | sltu | addi | addiu | slti | sltiu
  | andi | ori | lui | lw | lbu | lhu | sb | sh | sw | halt => exact nomatch hi

/-- Settles O25: the pending redirect changes only by a CTI with none pending, and such a CTI has
changed the state. -/
theorem onlyTakenTransfersRequestARedirect : Obligations.OnlyTakenTransfersRequestARedirect := by
  intro i s t h
  have he : Effect i s t := exec_effect h
  refine ⟨he.pc_eq, he.pending_cases.imp_right fun ⟨hi, hidle, hvalid⟩ => ⟨hidle, hvalid, ?_⟩⟩
  have hne : t ≠ s := fun e => absurd ((e ▸ hvalid).symm.trans hidle) (by decide)
  exact requests_of_isCti hi h hne

end Sys2Proof.Machine
end

section
/-! What a step does with the PC and the pending redirect: the refusal of a CTI in a delay slot, the
sequencer, the one delay slot, and alignment (44_control.md rules R141 to R145 and R183). -/

namespace Sys2Proof.Machine

theorem exec_refused_of_pending {i : Instr} {s : State} (hi : i.isCti = true)
    (hp : s.pendValid = true) : exec i s = .refused .ctiInDelaySlot := by
  obtain ⟨hidle, -⟩ | ⟨-, hrefused⟩ := exec_cti hi s
  · exact absurd (hp.symm.trans hidle) (by decide)
  · exact hrefused

/-- A refusal of the instruction is the step's. -/
theorem step_refused_of_exec {s : State} (hf : s.fetchable) {i : Instr}
    (hd : decode s.wordAtPc = .ok i) {r : Refusal} (h : exec i (advance s) = .refused r) :
    step s = .refused r :=
  (step_executes hf hd).trans (congrArg (retire s.pendValid) h)

/-- Settles O26: by its meaning (`exec_cti`), and by the step, which passes the refusal on. -/
theorem aTransferInADelaySlotIsRefused : Obligations.ATransferInADelaySlotIsRefused :=
  ⟨fun _ _ hi hp => exec_refused_of_pending hi hp,
    fun _ s hf hd hi hp =>
      step_refused_of_exec hf hd (exec_refused_of_pending (s := advance s) hi hp)⟩

/-- A step that executes an instruction and answers a next state: the instruction completed, and the
sequencer ran on the state it left. -/
theorem exec_of_step {s t : State} (hf : s.fetchable) {i : Instr} (hd : decode s.wordAtPc = .ok i)
    (h : step s = .next t) : ∃ u, exec i (advance s) = .next u ∧ Effect i (advance s) u ∧
      t = sequence s.pendValid u := by
  rw [step_executes hf hd] at h
  cases hx : exec i (advance s) with
  | next u =>
    rw [hx] at h
    exact ⟨u, rfl, exec_effect hx, (Host.Outcome.next.inj h).symm⟩
  | fault r => rw [hx] at h; cases h
  | refused r => rw [hx] at h; cases h

/-- Settles O27: the instruction keeps a pending redirect, so the sequencer applies the one that was
pending before it, and only on a run that goes on. -/
theorem theSequencerAppliesThePendingRedirect :
    Obligations.TheSequencerAppliesThePendingRedirect := by
  intro s t i hf hd h
  obtain ⟨u, hx, he, rfl⟩ := exec_of_step hf hd h
  refine ⟨u, hx, sequence_regs .., sequence_mem .., sequence_term .., fun hp hr => ?applied,
    fun hp hended => ?ended, fun hidle => ?idle⟩
  case applied =>
    obtain ⟨-, -, htarget⟩ := he.keepsFlow_of_pending hp
    rw [hp, sequence_slot hr]
    exact ⟨htarget, rfl⟩
  case ended =>
    rw [sequence_ended hended]
    obtain ⟨hpc, hvalid, htarget⟩ := he.keepsFlow_of_pending hp
    exact ⟨hpc, hvalid.trans hp, htarget⟩
  case idle =>
    rw [hidle, sequence_idle]
    exact ⟨he.pc_eq, rfl, rfl⟩

/-- A CTI that completes goes on running. -/
theorem term_of_exec_cti {i : Instr} {s t : State} (hi : i.isCti = true)
    (h : exec i s = .next t) : t.term = s.term := by
  obtain ⟨-, req, u, rfl, hu⟩ := exec_cti_effect hi h
  obtain ⟨hterm, -, -⟩ := keepsRun_transfer hu req
  exact hterm

/-- Where a step that goes on leaves the PC: at the pending target in a delay slot, which leaves the
sequencer Idle, and after itself otherwise. -/
theorem step_flow_of_running {s t : State} (h : step s = .next t) (ht : t.term = .running) :
    (s.pendValid = true → t.pc = s.pendTarget ∧ t.pendValid = false) ∧
    (s.pendValid = false → t.pc = s.pc + 4) := by
  cases step_stepped h with
  | fetchFault | illegal => exact nomatch ht
  | executed i u hf hd =>
    obtain ⟨u', -, -, -, hterm, happlied, -, hidle⟩ :=
      theSequencerAppliesThePendingRedirect s _ i hf hd h
    refine ⟨fun hp => happlied hp (hterm ▸ ht), fun hp => ?_⟩
    obtain ⟨hpc, -, -⟩ := hidle hp
    exact hpc

/-- Settles O28: a CTI completes with none pending, so its step leaves the PC after itself and runs
on; the step after it goes where `step_flow_of_running` says. -/
theorem exactlyOneDelaySlotFollowsATransfer : Obligations.ExactlyOneDelaySlotFollowsATransfer := by
  intro s t i hf hd hi h
  obtain ⟨hr, -, -⟩ := id hf
  obtain ⟨u, hx, -, rfl⟩ := exec_of_step hf hd h
  obtain ⟨hidle, -⟩ := exec_cti_effect hi hx
  have hterm : (sequence s.pendValid u).term = .running := by
    rw [sequence_term, term_of_exec_cti hi hx]
    exact hr
  obtain ⟨-, hpc⟩ := step_flow_of_running h hterm
  refine ⟨hterm, hpc hidle, fun v hv hrun => ?_⟩
  obtain ⟨hslot, hnext⟩ := step_flow_of_running hv hrun
  refine ⟨hslot, fun hp => ?_⟩
  rw [hnext hp, hpc hidle, BitVec.add_assoc]
  rfl

/-! ### Alignment (R145) -/

/-- Sums of multiples of 4 wrap to multiples of 4. -/
theorem Aligned4.add {a b : Word} (ha : Aligned4 a) (hb : Aligned4 b) : Aligned4 (a + b) := by
  unfold Aligned4 at *
  rw [BitVec.toNat_add]
  omega

theorem Aligned4.add_four {a : Word} (ha : Aligned4 a) : Aligned4 (a + 4) :=
  ha.add (b := 4) rfl

theorem aligned4_branchTarget {pcInc : Word} (h : Aligned4 pcInc) (imm : Imm16) :
    Aligned4 (branchTarget pcInc imm) :=
  h.add (toNat_bdisp_mod_four imm)

theorem aligned4_jumpTarget (pcInc : Word) (target : Target26) :
    Aligned4 (jumpTarget pcInc target) := by
  unfold Aligned4
  rw [jumpTarget_eq_ofNat, BitVec.toNat_ofNat]
  omega

/-- A control transfer to an aligned target leaves the pending target aligned. -/
theorem aligned_pendTarget_of_controlTransfer {req : Option Word} {s t : State}
    (hs : s.pendValid = true → Aligned4 s.pendTarget) (hreq : ∀ a ∈ req, Aligned4 a)
    (h : controlTransfer req s = .next t) : t.pendValid = true → Aligned4 t.pendTarget := by
  obtain ⟨-, hrefused⟩ | ⟨-, hnext⟩ := controlTransfer_cases req s
  · exact nomatch hrefused.symm.trans h
  · obtain rfl := Host.Outcome.next.inj (hnext.symm.trans h)
    cases req with
    | none => exact hs
    | some a => exact fun _ => hreq a rfl

theorem aligned_pendTarget_of_branchIf {taken : Bool} {imm : Imm16} {s t : State}
    (hs : s.flowAligned) (h : branchIf taken imm s = .next t) :
    t.pendValid = true → Aligned4 t.pendTarget := by
  obtain ⟨hpc, htarget⟩ := hs
  refine aligned_pendTarget_of_controlTransfer htarget (fun a ha => ?_) h
  cases taken with
  | true => exact Option.some.inj ha ▸ aligned4_branchTarget hpc imm
  | false => exact nomatch ha

/-- Every instruction but jr leaves the pending target aligned. -/
theorem aligned_pendTarget_of_exec {i : Instr} {s t : State} (hs : s.flowAligned)
    (hi : ∀ rs, i ≠ .jr rs) (h : exec i s = .next t) :
    t.pendValid = true → Aligned4 t.pendTarget := by
  obtain ⟨hpc, htarget⟩ := id hs
  have hjump : ∀ target, ∀ a ∈ some (jumpTarget s.pc target), Aligned4 a := fun target a ha =>
    Option.some.inj ha ▸ aligned4_jumpTarget s.pc target
  cases hcti : i.isCti with
  | false =>
    obtain ⟨hvalid, hkept⟩ | ⟨hi', -⟩ := (exec_effect h).pending_cases
    · rwa [hvalid, hkept]
    · exact absurd (hcti.symm.trans hi') (by decide)
  | true =>
    cases i with
    | jr rs => exact absurd rfl (hi rs)
    | beq | bne | blez | bgtz => exact aligned_pendTarget_of_branchIf hs h
    | j target => exact aligned_pendTarget_of_controlTransfer htarget (hjump target) h
    | jal target =>
      exact aligned_pendTarget_of_controlTransfer
        (s := s.setReg Config.linkReg (linkValue s.pc)) htarget (hjump target) h
    | sll | srl | add | addu | sub | subu | and | or | nor | slt | sltu | addi | addiu | slti
    | sltiu | andi | ori | lui | lw | lbu | lhu | sb | sh | sw | halt => exact nomatch hcti

/-- The sequencer moves an aligned pending target into the PC, or changes nothing. -/
theorem flowAligned_sequence {slot : Bool} {s : State} (hs : s.flowAligned)
    (hslot : slot = true → s.pendValid = true) : (sequence slot s).flowAligned := by
  obtain ⟨hpc, htarget⟩ := hs
  obtain ⟨htrue, -, heq⟩ | ⟨-, heq⟩ := sequence_cases slot s
  · rw [heq]
    exact ⟨htarget (hslot htrue), nofun⟩
  · rw [heq]
    exact ⟨hpc, htarget⟩

/-- Settles O29: phase 2 keeps alignment, every instruction but jr does, and the sequencer does. -/
theorem onlyJrBreaksAlignment : Obligations.OnlyJrBreaksAlignment := by
  rintro s t ⟨hpc, htarget⟩ h hjr
  have hadv : (advance s).flowAligned := ⟨hpc.add_four, htarget⟩
  cases step_stepped h with
  | fetchFault => exact ⟨hpc, htarget⟩
  | illegal => exact hadv
  | executed i u hf hd he hx =>
    have hi : ∀ rs, i ≠ .jr rs := fun rs e => hjr rs (e ▸ hd)
    refine flowAligned_sequence ⟨?_, aligned_pendTarget_of_exec hadv hi hx⟩ fun hp => ?_
    · rw [he.pc_eq]
      exact hpc.add_four
    · obtain ⟨-, hvalid, -⟩ := he.keepsFlow_of_pending hp
      exact hvalid.trans hp

end Sys2Proof.Machine
end

section
/-! One step as a whole: it is its instruction and the sequencer, a failed fetch ends it before
phase 2, the sentinel ends the run, and x[0] is zeroed before anything reads it (40_cycle.md rules R100 to
R103, 10_state.md rule R22). -/

namespace Sys2Proof.Machine

/-- The sequencer as one condition: it applies the redirect exactly in the delay slot of a run that
goes on (R142). -/
theorem sequence_eq_ite (slot : Bool) (s : State) : sequence slot s =
    if slot = true ∧ s.term = .running then { s with pc := s.pendTarget, pendValid := false }
    else s := by
  obtain ⟨hslot, hr, heq⟩ | ⟨hnot, heq⟩ := sequence_cases slot s
  · rw [heq, if_pos ⟨hslot, hr⟩]
  · rw [heq, if_neg]
    rintro ⟨hslot, hr⟩
    obtain hfalse | hended := hnot
    · exact absurd (hslot.symm.trans hfalse) (by decide)
    · exact hended hr

/-- Four bytes decode as the word they hold (R41, R60). -/
theorem decode_of_decodeBytes {b0 b1 b2 b3 : Byte} {i : Instr}
    (h : decodeBytes [b0, b1, b2, b3] = .ok (i, [])) :
    decode (wordOfBytes b0 b1 b2 b3) = .ok i := by
  rw [decodeBytes] at h
  cases hd : decode (wordOfBytes b0 b1 b2 b3) with
  | ok k =>
    rw [hd] at h
    cases h
    rfl
  | error r => rw [hd] at h; cases h

/-- No instruction faults. -/
theorem exec_ne_fault (i : Instr) (s : State) (r : Fault) : exec i s ≠ .fault r := by
  intro h
  cases hi : i.isCti with
  | false =>
    obtain ⟨t, ht⟩ := exec_completes hi s
    exact nomatch ht.symm.trans h
  | true =>
    obtain ⟨-, t, ht⟩ | ⟨-, ht⟩ := exec_cti hi s <;> exact nomatch ht.symm.trans h

/-- Settles O30: the four bytes are the word fetched, and the sequencer's condition is the
statement's because an instruction keeps a redirect that was pending. -/
theorem aStepRunsTheDecodedInstruction : Obligations.AStepRunsTheDecodedInstruction := by
  rintro s a i hr hal hadm hbytes rfl
  have hf : s.fetchable := ⟨hr, hal, hadm⟩
  have hd : decode s.wordAtPc = .ok i := decode_of_decodeBytes hbytes
  refine ⟨fun u hx => ?_, exec_ne_fault i _, fun r hx => step_refused_of_exec hf hd hx⟩
  rw [← sequence_eq_ite]
  exact (step_executes hf hd).trans (congrArg (retire s.pendValid) hx)

/-- Settles O31: a fetch that is not admitted raises on the state before phase 2. -/
theorem aFailedFetchIsRefusedOrEndsTheRun : Obligations.AFailedFetchIsRefusedOrEndsTheRun :=
  fun s hr => ⟨step_misaligned hr,
    fun hal hadm => ⟨_, step_notAdmitted hr hal hadm, onlyError_raise _ s⟩⟩

theorem exec_halt (s : State) : exec .halt s = .next (haltClean s) := rfl

/-- The step that fetches the sentinel ends the run on the state phase 2 leaves, and the sequencer
does not run (R103). -/
theorem step_halt {s : State} (hf : s.fetchable) (hw : s.wordAtPc = Config.haltWord) :
    step s = .next (haltClean (advance s)) := by
  have hended : (haltClean (advance s)).term ≠ .running := nofun
  rw [step_executes hf (hw ▸ decode_haltWord), exec_halt, retire, sequence_ended hended]

/-- Settles O32: the clean halt sets the termination state only; the step adds what phase 2 does to
the PC and the registers. -/
theorem theSentinelHaltsCleanly : Obligations.TheSentinelHaltsCleanly := by
  refine ⟨fun s => ?_, fun s hf hw => ?_⟩
  · exact ⟨_, exec_halt s, rfl, rfl, rfl, fun _ => rfl, fun _ => rfl, ⟨rfl, rfl, rfl⟩, rfl⟩
  · exact ⟨_, step_halt hf hw, rfl, rfl, reg_zero_advance s, keepsRegsBut_zero_advance s,
      fun _ => rfl, rfl, rfl, rfl, rfl⟩

/-- Only the sentinel ends the run cleanly, and then it changes nothing else. -/
theorem Effect.eq_haltClean {i : Instr} {s t : State} (h : Effect i s t)
    (hr : s.term = .running) (ht : t.term = .haltedClean) : t = haltClean s := by
  cases h with
  | writes | stores => exact nomatch hr.symm.trans ht
  | overflows | faults => exact nomatch ht
  | halts => rfl
  | transfers req u _ _ hu =>
    obtain ⟨hterm, -, -⟩ := keepsRun_transfer hu req
    exact nomatch hr.symm.trans (hterm.symm.trans ht)

/-- Settles O43: past the fetch a step works on the state phase 2 leaves, in which x[0] is 0
whatever it held; and a clean halt keeps the registers of that state. -/
theorem aStaleRegister0IsNeverRead : Obligations.AStaleRegister0IsNeverRead := by
  refine ⟨fun s v hf => ?_, fun s t h ht => ?_⟩
  · have hf' : (s.setReg 0 v).fetchable := hf
    have hword : (s.setReg 0 v).wordAtPc = s.wordAtPc := rfl
    cases hd : decode s.wordAtPc with
    | ok i =>
      rw [step_executes hf hd, step_executes hf' hd, advance_setReg_zero, setReg_pendValid]
    | error r => rw [step_illegal hf hd, step_illegal hf' hd, advance_setReg_zero, hword]
  · cases step_stepped h with
    | fetchFault | illegal => exact nomatch ht
    | executed i u hf hd he =>
      obtain ⟨hr, -, -⟩ := hf
      rw [sequence_term] at ht
      rw [reg_sequence, he.eq_haltClean hr ht, reg_haltClean, reg_zero_advance]

end Sys2Proof.Machine
end

section
/-! The errors an instruction can raise, with their conditions: an overflow of add, sub or addi, and
an access that is not admitted; then the causes of a step (60_exceptions.md rules R160 and R165). -/

namespace Sys2Proof.Machine

theorem load_admitted {w : Width} {ea : Word} {s : State} (ha : s.admission.admits ea w = true)
    (rt : Reg) : load w rt ea s = .next (s.setReg rt (s.mem.read ea w)) := by
  rw [load, memRead_admitted ha]

theorem load_refused {w : Width} {ea : Word} {s : State} (ha : s.admission.admits ea w = false)
    (rt : Reg) : load w rt ea s = .next (raise (.memoryAccessFault ea w) s) := by
  rw [load, memRead_refused ha]

theorem store_refused {w : Width} {ea : Word} {s : State} (ha : s.admission.admits ea w = false)
    (v : Word) : store w v ea s = .next (raise (.memoryAccessFault ea w) s) := by
  rw [store, memWrite_refused ha]

/-- `i` is an add, sub or addi whose exact signed result is out of range, raised with its operands
(R160). -/
def OverflowError (i : Instr) (s t : State) : Prop :=
  ∃ (rd rs rt : Reg) (imm : Imm16) (a b : Word) (x : Int), a = s.reg rs ∧
    ((i = .add rd rs rt ∧ b = s.reg rt ∧ x = a.toInt + b.toInt) ∨
      (i = .sub rd rs rt ∧ b = s.reg rt ∧ x = a.toInt - b.toInt) ∨
      (i = .addi rd rs imm ∧ b = sext32 imm ∧ x = a.toInt + imm.toInt)) ∧
    (x < -2 ^ 31 ∨ 2 ^ 31 ≤ x) ∧ Raised (.arithmeticOverflow a b) s t

/-- `i` is a load or store whose access is not admitted, raised with its address and width
(R160). -/
def AccessError (i : Instr) (s t : State) : Prop :=
  ∃ (rt rs : Reg) (imm : Imm16) (w : Width) (ea : Word), ea = effAddr (s.reg rs) imm ∧
    ((w = .word ∧ (i = .lw rt rs imm ∨ i = .sw rt rs imm)) ∨
      (w = .half ∧ (i = .lhu rt rs imm ∨ i = .sh rt rs imm)) ∨
      (w = .byte ∧ (i = .lbu rt rs imm ∨ i = .sb rt rs imm))) ∧
    s.admission.admits ea w = false ∧ Raised (.memoryAccessFault ea w) s t

section
variable {s t : State} (hr : s.term = .running) (ht : t.term = .haltedError)
include hr ht

/-- A checked write that ends in an error found the overflow. -/
theorem writeChecked_raised {rd : Reg} {r a b : Word} {ovf : Bool}
    (h : writeChecked rd r ovf a b s = .next t) :
    ovf = true ∧ Raised (.arithmeticOverflow a b) s t := by
  rw [writeChecked_eq] at h
  obtain rfl := Host.Outcome.next.inj h
  cases ovf with
  | true => exact ⟨rfl, rfl, rfl, rfl⟩
  | false => exact nomatch hr.symm.trans ht

/-- A load that ends in an error was not admitted. -/
theorem load_raised {w : Width} {rt : Reg} {ea : Word} (h : load w rt ea s = .next t) :
    s.admission.admits ea w = false ∧ Raised (.memoryAccessFault ea w) s t := by
  obtain ⟨-, heq⟩ | ⟨ha, heq⟩ := load_cases w rt ea s <;>
    obtain rfl := Host.Outcome.next.inj (heq.symm.trans h)
  · exact nomatch hr.symm.trans ht
  · exact ⟨ha, rfl, rfl, rfl⟩

/-- A store that ends in an error was not admitted. -/
theorem store_raised {w : Width} {v ea : Word} (h : store w v ea s = .next t) :
    s.admission.admits ea w = false ∧ Raised (.memoryAccessFault ea w) s t := by
  obtain ⟨-, heq⟩ | ⟨ha, heq⟩ := store_cases w v ea s <;>
    obtain rfl := Host.Outcome.next.inj (heq.symm.trans h)
  · exact nomatch hr.symm.trans ht
  · exact ⟨ha, rfl, rfl, rfl⟩

/-- An instruction that ends in an error checks overflow or accesses memory. -/
theorem Effect.raises {i : Instr} (h : Effect i s t) :
    i.checksOverflow = true ∨ i.isLoad = true ∨ i.isStore = true := by
  cases h with
  | writes | stores => exact nomatch hr.symm.trans ht
  | overflows _ _ _ _ _ hc => exact .inl hc
  | faults _ _ hi => exact .inr hi
  | halts => exact nomatch ht
  | transfers req u _ _ hu =>
    obtain ⟨hterm, -, -⟩ := keepsRun_transfer hu req
    exact nomatch hr.symm.trans (hterm.symm.trans ht)

/-- An instruction that ends in an error met the conditions of the one it raised. -/
theorem exec_error {i : Instr} (h : exec i s = .next t) :
    OverflowError i s t ∨ AccessError i s t := by
  cases i with
  | add rd rs rt =>
    obtain ⟨hovf, hraised⟩ := writeChecked_raised hr ht h
    have hrange := (not_in_signed_range_iff _).mp ((ovfAdd_add_iff _ _).mp hovf)
    exact .inl ⟨rd, rs, rt, 0, _, _, _, rfl, .inl ⟨rfl, rfl, rfl⟩, hrange, hraised⟩
  | sub rd rs rt =>
    obtain ⟨hovf, hraised⟩ := writeChecked_raised hr ht h
    have hrange := (not_in_signed_range_iff _).mp ((ovfSub_sub_iff _ _).mp hovf)
    exact .inl ⟨rd, rs, rt, 0, _, _, _, rfl, .inr (.inl ⟨rfl, rfl, rfl⟩), hrange, hraised⟩
  | addi rt rs imm =>
    obtain ⟨hovf, hraised⟩ := writeChecked_raised hr ht h
    have hrange := (not_in_signed_range_iff _).mp ((ovfAdd_add_iff _ _).mp hovf)
    rw [toInt_sext32] at hrange
    exact .inl ⟨rt, rs, rt, imm, _, _, _, rfl, .inr (.inr ⟨rfl, rfl, rfl⟩), hrange, hraised⟩
  | lw rt rs imm =>
    exact .inr ⟨rt, rs, imm, .word, _, rfl, .inl ⟨rfl, .inl rfl⟩, load_raised hr ht h⟩
  | lhu rt rs imm =>
    exact .inr ⟨rt, rs, imm, .half, _, rfl, .inr (.inl ⟨rfl, .inl rfl⟩), load_raised hr ht h⟩
  | lbu rt rs imm =>
    exact .inr ⟨rt, rs, imm, .byte, _, rfl, .inr (.inr ⟨rfl, .inl rfl⟩), load_raised hr ht h⟩
  | sw rt rs imm =>
    exact .inr ⟨rt, rs, imm, .word, _, rfl, .inl ⟨rfl, .inr rfl⟩, store_raised hr ht h⟩
  | sh rt rs imm =>
    exact .inr ⟨rt, rs, imm, .half, _, rfl, .inr (.inl ⟨rfl, .inr rfl⟩), store_raised hr ht h⟩
  | sb rt rs imm =>
    exact .inr ⟨rt, rs, imm, .byte, _, rfl, .inr (.inr ⟨rfl, .inr rfl⟩), store_raised hr ht h⟩
  | sll | srl | jr | addu | subu | and | or | nor | slt | sltu | beq | bne | blez | bgtz | addiu
  | slti | sltiu | andi | ori | lui | j | jal | halt =>
    obtain hc | hl | hs := (exec_effect h).raises hr ht
    · exact nomatch hc
    · exact nomatch hl
    · exact nomatch hs

end

/-- Settles O36: a step into HaltedError is a fetch fault, an illegal word, or an instruction that
raised (`exec_error`); each records its own cause, so the clauses of the others are void. -/
theorem eachCauseHasItsOwnConditions : Obligations.EachCauseHasItsOwnConditions := by
  intro s t h ht
  cases step_stepped h with
  | fetchFault _ hal hadm => exact ⟨nofun, nofun, nofun, fun _ => .inl ⟨hal, hadm, rfl, rfl, rfl⟩⟩
  | illegal r hf hd => exact ⟨nofun, fun _ => ⟨⟨r, hd⟩, rfl, rfl, rfl⟩, nofun, nofun⟩
  | executed i u hf hd he hx =>
    obtain ⟨hr, -, -⟩ := hf
    rw [sequence_term] at ht
    rw [sequence_ended (by simp [ht])]
    obtain hovf | hacc := exec_error (s := advance s) hr ht hx
    · obtain ⟨rd, rs, rt, imm, a, b, x, ha, hi, hx, hraised⟩ := hovf
      obtain ⟨-, hcause, -⟩ := id hraised
      rw [hcause]
      exact ⟨nofun, nofun, fun _ => ⟨i, rd, rs, rt, imm, a, b, x, hd, ha, hi, hx, hraised⟩, nofun⟩
    · obtain ⟨rt, rs, imm, w, ea, hea, hi, hadm, hraised⟩ := hacc
      obtain ⟨-, hcause, -⟩ := id hraised
      rw [hcause]
      exact ⟨nofun, nofun, nofun, fun _ => .inr ⟨i, rt, rs, imm, w, ea, hd, hea, hi, hadm, hraised⟩⟩

end Sys2Proof.Machine
end

section
/-! That an instruction depends on no register outside R32's reads column: each shared operation,
then each instruction, answers alike on two register files that agree on what it reads (10_state.md
section 6). -/

namespace Sys2Proof.Machine

/-- `t` and `t'` agree on everything but registers, and each register is equal in both or kept in
both from `s` and `s'`. -/
def RegsAlike (s s' t t' : State) : Prop :=
  t' = { t with regs := t'.regs } ∧
    ∀ r, t'.reg r = t.reg r ∨ (t.reg r = s.reg r ∧ t'.reg r = s'.reg r)

/-- The two outcomes are the same refusal, or next states alike but for registers. -/
def AnswersAlike (s s' : State) (x x' : Result) : Prop :=
  (∀ r, x = .refused r → x' = .refused r) ∧
    ∀ t, x = .next t → ∃ t', x' = .next t' ∧ RegsAlike s s' t t'

theorem RegsAlike.rest_eq {s s' t t' : State} (h : RegsAlike s s' t t') :
    t'.pc = t.pc ∧ t'.pendValid = t.pendValid ∧ t'.mem = t.mem ∧ t'.admission = t.admission := by
  obtain ⟨hrest, -⟩ := h
  rw [hrest]
  exact ⟨rfl, rfl, rfl, rfl⟩

theorem answersAlike_next {s s' t t' : State} (h : RegsAlike s s' t t') :
    AnswersAlike s s' (.next t) (.next t') :=
  ⟨nofun, fun _ ht => ⟨t', rfl, Host.Outcome.next.inj ht ▸ h⟩⟩

theorem answersAlike_refused (s s' : State) (r : Refusal) :
    AnswersAlike s s' (.refused r) (.refused r) :=
  ⟨fun _ h => h, nofun⟩

/-! ### Updates that do not depend on the registers -/

section
variable {s s' t t' : State} (h : RegsAlike s s' t t')
include h

theorem RegsAlike.setReg (r : Reg) (v : Word) : RegsAlike s s' (t.setReg r v) (t'.setReg r v) := by
  obtain ⟨hrest, hregs⟩ := h
  refine ⟨?_, fun q => ?_⟩
  · rw [hrest]; rfl
  · rw [reg_setReg, reg_setReg]
    split
    · exact .inl rfl
    · exact hregs q

theorem RegsAlike.raise (d : Diag) :
    RegsAlike s s' (Machine.raise d t) (Machine.raise d t') := by
  obtain ⟨hrest, hregs⟩ := h
  exact ⟨by rw [hrest]; rfl, hregs⟩

theorem RegsAlike.haltClean : RegsAlike s s' (Machine.haltClean t) (Machine.haltClean t') := by
  obtain ⟨hrest, hregs⟩ := h
  exact ⟨by rw [hrest]; rfl, hregs⟩

theorem RegsAlike.request (req : Option Word) :
    RegsAlike s s' (Machine.request req t) (Machine.request req t') := by
  obtain ⟨hrest, hregs⟩ := h
  cases req with
  | none => exact ⟨hrest, hregs⟩
  | some a => exact ⟨by rw [hrest]; rfl, hregs⟩

/-! ### The shared operations -/

theorem writeChecked_alike (rd : Reg) (r : Word) (ovf : Bool) (a b : Word) :
    AnswersAlike s s' (writeChecked rd r ovf a b t) (writeChecked rd r ovf a b t') := by
  rw [writeChecked_eq, writeChecked_eq]
  cases ovf with
  | true => exact answersAlike_next ((h.setReg rd r).raise _)
  | false => exact answersAlike_next (h.setReg rd r)

theorem controlTransfer_alike (req : Option Word) :
    AnswersAlike s s' (controlTransfer req t) (controlTransfer req t') := by
  obtain ⟨-, hvalid, -, -⟩ := h.rest_eq
  rw [controlTransfer, controlTransfer, hvalid]
  split
  · exact answersAlike_refused s s' _
  · exact answersAlike_next (h.request req)

theorem branchIf_alike (taken : Bool) (imm : Imm16) :
    AnswersAlike s s' (branchIf taken imm t) (branchIf taken imm t') := by
  obtain ⟨hpc, -, -, -⟩ := h.rest_eq
  rw [branchIf, branchIf, hpc]
  exact controlTransfer_alike h _

theorem load_alike (w : Width) (rt : Reg) (ea : Word) :
    AnswersAlike s s' (load w rt ea t) (load w rt ea t') := by
  obtain ⟨-, -, hmem, hadm⟩ := h.rest_eq
  cases ha : t.admission.admits ea w with
  | true =>
    rw [load_admitted ha, load_admitted (hadm ▸ ha), hmem]
    exact answersAlike_next (h.setReg rt _)
  | false =>
    rw [load_refused ha, load_refused (hadm ▸ ha)]
    exact answersAlike_next (h.raise _)

theorem store_alike (w : Width) (v ea : Word) :
    AnswersAlike s s' (store w v ea t) (store w v ea t') := by
  obtain ⟨-, -, -, hadm⟩ := h.rest_eq
  cases ha : t.admission.admits ea w with
  | true =>
    rw [store_admitted ha, store_admitted (hadm ▸ ha)]
    obtain ⟨hrest, hregs⟩ := h
    exact answersAlike_next ⟨by rw [hrest], hregs⟩
  | false =>
    rw [store_refused ha, store_refused (hadm ▸ ha)]
    exact answersAlike_next (h.raise _)

end

/-! ### The instructions -/

/-- Two register files of one state are alike. -/
theorem regsAlike_of_regs (s : State) (regs' : Vector Word 32) :
    RegsAlike s { s with regs := regs' } s { s with regs := regs' } :=
  ⟨rfl, fun _ => .inr ⟨rfl, rfl⟩⟩

/-- What holds of every register of a two-element reads column holds of both. -/
theorem forall_mem_two {p : Reg → Prop} {a b : Reg} (h : ∀ r, r ∈ [a, b] → p r) : p a ∧ p b :=
  ⟨h a (by simp), h b (by simp)⟩

/-- Every instruction answers alike on two register files that agree on what it reads: once its
operands are rewritten it is the same operation on both. -/
theorem exec_alike (i : Instr) {s s' : State} (h : RegsAlike s s' s s')
    (hreads : ∀ r, r ∈ i.reads → s'.reg r = s.reg r) :
    AnswersAlike s s' (exec i s) (exec i s') := by
  obtain ⟨hpc, -, -, -⟩ := h.rest_eq
  cases i with
  | sll | srl | addiu | slti | sltiu | andi | ori =>
    have hsrc := hreads _ (List.mem_singleton_self _)
    simp only [exec_sll, exec_srl, exec_addiu, exec_slti, exec_sltiu, exec_andi, exec_ori, hsrc]
    exact answersAlike_next (h.setReg ..)
  | addu | subu | and | or | nor | slt | sltu =>
    obtain ⟨hrs, hrt⟩ := forall_mem_two hreads
    simp only [exec_addu, exec_subu, exec_and, exec_or, exec_nor, exec_slt, exec_sltu, hrs, hrt]
    exact answersAlike_next (h.setReg ..)
  | lui => exact answersAlike_next (h.setReg ..)
  | add | sub =>
    obtain ⟨hrs, hrt⟩ := forall_mem_two hreads
    simp only [exec_add, exec_sub, hrs, hrt]
    exact writeChecked_alike h ..
  | addi rt rs imm =>
    rw [exec_addi, exec_addi, hreads rs (List.mem_singleton_self _)]
    exact writeChecked_alike h ..
  | lw | lbu | lhu =>
    have hbase := hreads _ (List.mem_singleton_self _)
    simp only [exec_lw, exec_lbu, exec_lhu, hbase]
    exact load_alike h ..
  | sb | sh | sw =>
    obtain ⟨hrs, hrt⟩ := forall_mem_two hreads
    simp only [exec_sb, exec_sh, exec_sw, hrs, hrt]
    exact store_alike h ..
  | beq | bne =>
    obtain ⟨hrs, hrt⟩ := forall_mem_two hreads
    simp only [exec_beq, exec_bne, hrs, hrt]
    exact branchIf_alike h ..
  | blez | bgtz =>
    have hsrc := hreads _ (List.mem_singleton_self _)
    simp only [exec_blez, exec_bgtz, hsrc]
    exact branchIf_alike h ..
  | jr rs =>
    rw [exec_jr, exec_jr, hreads rs (List.mem_singleton_self _)]
    exact controlTransfer_alike h _
  | j target =>
    rw [exec_j, exec_j, hpc]
    exact controlTransfer_alike h _
  | jal target =>
    rw [exec_jal, exec_jal, hpc]
    exact controlTransfer_alike (h.setReg ..) _
  | halt => exact answersAlike_next h.haltClean

/-- Settles O39: `exec_alike` on one state with two register files. -/
theorem instructionsReadOnlyTheirTabledRegisters :
    Obligations.InstructionsReadOnlyTheirTabledRegisters :=
  fun i s regs' hreads => exec_alike i (regsAlike_of_regs s regs') hreads

end Sys2Proof.Machine
end

section
/-! That the value of pend_target makes no difference while no redirect is pending: an instruction,
a step and a run from two states that differ in it answer alike (10_state.md rule R24). -/

namespace Sys2Proof.Machine

/-- `t` and `t'` agree on everything but pend_target, and on that too if a redirect is pending. -/
def IdleAlike (t t' : State) : Prop :=
  t' = { t with pendTarget := t'.pendTarget } ∧
    (t.pendValid = true → t'.pendTarget = t.pendTarget)

/-- The same refusal, the same fault, or next states alike but for an idle pend_target. -/
inductive OutcomesAlike : Result → Result → Prop
  | next {t t' : State} (h : IdleAlike t t') : OutcomesAlike (.next t) (.next t')
  | fault (r : Fault) : OutcomesAlike (.fault r) (.fault r)
  | refused (r : Refusal) : OutcomesAlike (.refused r) (.refused r)

theorem IdleAlike.refl (s : State) : IdleAlike s s := ⟨rfl, fun _ => rfl⟩

theorem OutcomesAlike.refl (x : Result) : OutcomesAlike x x := by
  cases x with
  | next s => exact .next (.refl s)
  | fault r => exact .fault r
  | refused r => exact .refused r

/-- With none pending, any pend_target is alike. -/
theorem idleAlike_of_idle {s : State} (hidle : s.pendValid = false) (v : Word) :
    IdleAlike s { s with pendTarget := v } :=
  ⟨rfl, fun hp => absurd (hp.symm.trans hidle) (by decide)⟩

/-- Alike states are one state, or differ in an idle pend_target. -/
theorem IdleAlike.cases {s s' : State} (h : IdleAlike s s') :
    s' = s ∨ (s.pendValid = false ∧ ∃ v, s' = { s with pendTarget := v }) := by
  obtain ⟨hrest, htarget⟩ := h
  by_cases hp : s.pendValid = true
  · rw [htarget hp] at hrest
    exact .inl hrest
  · exact .inr ⟨Bool.eq_false_iff.mpr hp, _, hrest⟩

section
variable {s : State} (hidle : s.pendValid = false) (v : Word)
include hidle

theorem outcomesAlike_next_idle : OutcomesAlike (.next s) (.next { s with pendTarget := v }) :=
  .next (idleAlike_of_idle hidle v)

theorem writeChecked_idle (rd : Reg) (r : Word) (ovf : Bool) (a b : Word) :
    OutcomesAlike (writeChecked rd r ovf a b s)
      (writeChecked rd r ovf a b { s with pendTarget := v }) := by
  rw [writeChecked_eq, writeChecked_eq]
  cases ovf with
  | true => exact outcomesAlike_next_idle (s := raise _ (s.setReg rd r)) hidle v
  | false => exact outcomesAlike_next_idle (s := s.setReg rd r) hidle v

theorem load_idle (w : Width) (rt : Reg) (ea : Word) :
    OutcomesAlike (load w rt ea s) (load w rt ea { s with pendTarget := v }) := by
  cases ha : s.admission.admits ea w with
  | true =>
    rw [load_admitted ha, load_admitted (s := { s with pendTarget := v }) ha]
    exact outcomesAlike_next_idle (s := s.setReg rt _) hidle v
  | false =>
    rw [load_refused ha, load_refused (s := { s with pendTarget := v }) ha]
    exact outcomesAlike_next_idle (s := raise _ s) hidle v

theorem store_idle (w : Width) (x ea : Word) :
    OutcomesAlike (store w x ea s) (store w x ea { s with pendTarget := v }) := by
  cases ha : s.admission.admits ea w with
  | true =>
    rw [store_admitted ha, store_admitted (s := { s with pendTarget := v }) ha]
    exact outcomesAlike_next_idle (s := { s with mem := s.mem.write ea w x }) hidle v
  | false =>
    rw [store_refused ha, store_refused (s := { s with pendTarget := v }) ha]
    exact outcomesAlike_next_idle (s := raise _ s) hidle v

/-- A control transfer overwrites pend_target, or leaves it idle. -/
theorem controlTransfer_idle_alike (req : Option Word) :
    OutcomesAlike (controlTransfer req s) (controlTransfer req { s with pendTarget := v }) := by
  rw [controlTransfer_idle hidle, controlTransfer_idle (s := { s with pendTarget := v }) hidle]
  cases req with
  | none => exact outcomesAlike_next_idle hidle v
  | some a => exact .refl _

/-- No instruction reads an idle pend_target. -/
theorem exec_idle (i : Instr) :
    OutcomesAlike (exec i s) (exec i { s with pendTarget := v }) := by
  cases i with
  | sll | srl | addu | subu | and | or | nor | slt | sltu | addiu | slti | sltiu | andi | ori
  | lui => exact outcomesAlike_next_idle (s := s.setReg _ _) hidle v
  | halt => exact outcomesAlike_next_idle (s := haltClean s) hidle v
  | add | sub | addi => exact writeChecked_idle hidle v ..
  | lw | lbu | lhu => exact load_idle hidle v ..
  | sw | sb | sh => exact store_idle hidle v ..
  | jr | j | beq | bne | blez | bgtz => exact controlTransfer_idle_alike hidle v _
  | jal target =>
    exact controlTransfer_idle_alike (s := s.setReg Config.linkReg (linkValue s.pc)) hidle v _

/-- With none pending the sequencer does nothing, so a step answers as its instruction does. -/
theorem OutcomesAlike.retire_idle {x x' : Result} (h : OutcomesAlike x x') :
    OutcomesAlike (retire s.pendValid x) (retire s.pendValid x') := by
  rw [hidle]
  cases h with
  | next h => rw [retire, retire, sequence_idle, sequence_idle]; exact .next h
  | fault r => exact .fault r
  | refused r => exact .refused r

/-- No step reads an idle pend_target. -/
theorem step_idle : OutcomesAlike (step s) (step { s with pendTarget := v }) := by
  by_cases hr : s.term = .running
  case neg =>
    rw [step_ended hr, step_ended (s := { s with pendTarget := v }) hr]
    exact .refl _
  by_cases hal : Aligned4 s.pc
  case neg =>
    rw [step_misaligned hr hal, step_misaligned (s := { s with pendTarget := v }) hr hal]
    exact .refl _
  cases ha : s.admission.admits s.pc .word with
  | false =>
    rw [step_notAdmitted hr hal ha, step_notAdmitted (s := { s with pendTarget := v }) hr hal ha]
    exact outcomesAlike_next_idle (s := raise _ s) hidle v
  | true =>
    have hf : s.fetchable := ⟨hr, hal, ha⟩
    have hf' : State.fetchable { s with pendTarget := v } := hf
    cases hd : decode s.wordAtPc with
    | error r =>
      rw [step_illegal hf hd, step_illegal hf' hd]
      exact outcomesAlike_next_idle (s := raise _ (advance s)) hidle v
    | ok i =>
      rw [step_executes hf hd, step_executes hf' hd]
      exact (exec_idle (s := advance s) hidle v i).retire_idle hidle

end

/-- Steps from alike states answer alike. -/
theorem step_idleAlike {s s' : State} (h : IdleAlike s s') : OutcomesAlike (step s) (step s') := by
  obtain rfl | ⟨hidle, v, rfl⟩ := h.cases
  · exact .refl _
  · exact step_idle hidle v

/-- Runs from alike states answer alike, by induction on the number of steps. -/
theorem run_idleAlike (k : Nat) {s s' : State} (h : IdleAlike s s') :
    OutcomesAlike (Sys2Proof.core.run k s) (Sys2Proof.core.run k s') := by
  induction k generalizing s s' with
  | zero => exact .next h
  | succ k ih =>
    have hstep : OutcomesAlike (step s) (step s') := step_idleAlike h
    generalize hx : step s = x, hx' : step s' = x' at hstep
    cases hstep with
    | next ht =>
      rw [run_next hx, run_next hx']
      exact ih ht
    | fault r =>
      rw [run_fault hx, run_fault hx']
      exact .fault r
    | refused r =>
      rw [run_refused hx, run_refused hx']
      exact .refused r

/-- The observation and the exit code do not show pend_target (R108, R109). -/
theorem IdleAlike.outputs_eq {t t' : State} (h : IdleAlike t t') :
    t'.observe = t.observe ∧ t'.exitCode = t.exitCode := by
  obtain ⟨hrest, -⟩ := h
  rw [hrest]
  exact ⟨rfl, rfl⟩

/-- Settles O42: the two runs answer alike (`run_idleAlike`), which is each clause read off
in turn. -/
theorem anIdlePendTargetIsUnobservable : Obligations.AnIdlePendTargetIsUnobservable := by
  intro k s v hidle
  have hrun := run_idleAlike k (idleAlike_of_idle hidle v)
  generalize Sys2Proof.core.run k s = x at hrun ⊢
  generalize Sys2Proof.core.run k { s with pendTarget := v } = x' at hrun ⊢
  cases hrun with
  | @next t t' h =>
    obtain ⟨hrest, htarget⟩ := id h
    refine ⟨fun u hu => ?_, nofun, nofun⟩
    obtain rfl := Host.Outcome.next.inj hu
    exact ⟨t', rfl, hrest, htarget, h.outputs_eq⟩
  | fault r => exact ⟨nofun, nofun, fun _ hr => hr⟩
  | refused r => exact ⟨nofun, fun _ hr => hr, nofun⟩

end Sys2Proof.Machine
end

section
/-! The launch and the outputs: the loaded image byte by byte, the reset values, the exit code and
the observation (70_reset_and_hazards.md rule R181, 10_state.md rule R33, 60_exceptions.md rules
R164 and R166). -/

namespace Sys2Proof.Machine

/-- Outside the image, loading it changes nothing (D22). -/
theorem byteAt_load_outside {m : Memory} (h : m.wf = true) {at0 a : Nat} {image : List Byte}
    (hlen : at0 + image.length ≤ 2 ^ 32) (ha : a < at0 ∨ at0 + image.length ≤ a) :
    (m.load at0 image).byteAt a = m.byteAt a := by
  induction image generalizing m at0 with
  | nil => rfl
  | cons b rest ih =>
    rw [List.length_cons] at hlen ha
    rw [Memory.load, ih (setByte_wf h (by omega) b) (by omega) (by omega), byteAt_setByte h,
      if_neg (by omega)]

/-- Inside the image, memory holds the image's byte (R181). -/
theorem byteAt_load_inside {m : Memory} (h : m.wf = true) {at0 k : Nat} {image : List Byte}
    (hlen : at0 + image.length ≤ 2 ^ 32) (hk : k < image.length) :
    (m.load at0 image).byteAt (at0 + k) = image[k] := by
  induction image generalizing m at0 k with
  | nil => exact absurd hk (Nat.not_lt_zero k)
  | cons b rest ih =>
    rw [List.length_cons] at hlen hk
    have hwf : (m.setByte at0 b).wf = true := setByte_wf h (by omega) b
    cases k with
    | zero =>
      rw [Memory.load, byteAt_load_outside hwf (by omega) (by omega), byteAt_setByte h]
      exact if_pos rfl
    | succ k =>
      have hnext : at0 + (k + 1) = at0 + 1 + k := by omega
      rw [Memory.load, hnext, ih hwf (by omega) (by omega)]
      rfl

/-- Settles O45: the launch loads the image at address 0, inside it and beyond it. -/
theorem aLaunchLoadsTheImageAtZero : Obligations.ALaunchLoadsTheImageAtZero := by
  intro c rest image hwf hlen a
  have hlen' : 0 + image.length ≤ 2 ^ 32 := by omega
  refine ⟨fun h => ?_, fun h => byteAt_load_outside hwf hlen' (.inr (by omega))⟩
  have hinside := byteAt_load_inside hwf hlen' h
  rwa [Nat.zero_add] at hinside

theorem reg_reset (r : Reg) : State.reset.reg r = 0 := by
  simp [State.reg, State.reset]

/-- Settles O44: a launch is the reset state but for memory and the contract. -/
theorem aLaunchStartsInTheResetState : Obligations.ALaunchStartsInTheResetState := by
  rintro c rest image s rfl
  exact ⟨reg_reset, rfl, rfl, rfl, rfl, rfl, rfl⟩

/-- Settles O37: each of the three termination states has its own exit code, or none. -/
theorem exitCodesFollowTheTerminationState :
    Obligations.ExitCodesFollowTheTerminationState := by
  intro s
  cases h : s.term <;> simp [State.exitCode, h, Config.exitClean, Config.exitError]

/-- Once the run has ended, the observation is its termination state, registers, memory and cause
(R108). -/
theorem observe_of_ended {s : State} (h : s.ended) :
    s.observe = some { term := s.term, regs := s.regs, mem := s.mem, cause := s.cause } := by
  rw [State.observe]
  cases hterm : s.term with
  | running => exact absurd hterm h
  | haltedClean | haltedError => rfl

theorem observe_of_running {s : State} (h : s.term = .running) : s.observe = none := by
  rw [State.observe, h]

/-- Settles O51: an ended state is observed as `observe_of_ended` says, so another state observed
alike has ended too and agrees on the four fields; a running state is not observed. -/
theorem theObservationIsTheFinalState : Obligations.TheObservationIsTheFinalState := by
  intro s
  refine ⟨fun h => ?_, fun s' h => ?_, observe_of_running⟩
  · exact ⟨_, observe_of_ended h, rfl, fun _ => rfl, fun _ => rfl, rfl⟩
  · rw [observe_of_ended h]
    by_cases h' : s'.term = .running
    · rw [observe_of_running h']
      exact iff_of_false nofun fun ⟨hterm, _⟩ => h (hterm.symm.trans h')
    · rw [observe_of_ended h', Option.some.injEq, Observation.mk.injEq]

end Sys2Proof.Machine
end
